-- ==== Sys2Proof/Word.lean ====
section
/-! DEFINITION. The machine's words: bytes, 32-bit register values, register-window offsets. -/

namespace Sys2Proof

/-- One DMEM byte, one channel, one luma, chroma or delta sample (00_scope.md R8). -/
abbrev Byte := BitVec 8

/-- A control register's value, a command word, a DMEM byte address (00_scope.md R8). -/
abbrev Word := BitVec 32

/-- A byte offset in the 4096-byte register window, 0x000 to 0xFFF (10_state.md R17). -/
abbrev Offset := BitVec 12

end Sys2Proof
end

