-- ==== Sys2Proof/Machine/Transaction.lean ====
section
/-! DEFINITION. The register map, the host's transactions and their answers, and the events that reach the block. -/

namespace Sys2Proof.Machine

/-- The named control registers (10_state.md R17). -/
inductive RegName where
  | id | version | ctrl | cmd | status | irqStatus | irqEnable | errCode | errInfo
  | width | height | frameCount | srcAddr | dstAddr | refAddr | memSize
  deriving DecidableEq, Repr

/-- The offset of each named register (10_state.md R17, 30_encoding.md R85). -/
def regOffset : RegName → Offset
  | .id => 0x000#12
  | .version => 0x004#12
  | .ctrl => 0x008#12
  | .cmd => 0x00C#12
  | .status => 0x010#12
  | .irqStatus => 0x014#12
  | .irqEnable => 0x018#12
  | .errCode => 0x01C#12
  | .errInfo => 0x020#12
  | .width => 0x024#12
  | .height => 0x028#12
  | .frameCount => 0x02C#12
  | .srcAddr => 0x030#12
  | .dstAddr => 0x034#12
  | .refAddr => 0x038#12
  | .memSize => 0x03C#12

/-- The register at an offset of the window, or none at a reserved offset (10_state.md R17). -/
def regAt (off : Offset) : Option RegName :=
  match off.toNat with
  | 0x000 => some .id
  | 0x004 => some .version
  | 0x008 => some .ctrl
  | 0x00C => some .cmd
  | 0x010 => some .status
  | 0x014 => some .irqStatus
  | 0x018 => some .irqEnable
  | 0x01C => some .errCode
  | 0x020 => some .errInfo
  | 0x024 => some .width
  | 0x028 => some .height
  | 0x02C => some .frameCount
  | 0x030 => some .srcAddr
  | 0x034 => some .dstAddr
  | 0x038 => some .refAddr
  | 0x03C => some .memSize
  | _ => none

/-- A host transaction (30_encoding.md R81). `width` is a number of bytes and may be an illegal one; a DMEM address
has 32 bits (00_scope.md R8) and may lie past MEM_BYTES. -/
inductive Transaction where
  /-- (REG, W, width, off, v). -/
  | regWrite (width : Nat) (off : Offset) (v : Word)
  /-- (REG, R, width, off). -/
  | regRead (width : Nat) (off : Offset)
  /-- (DMEM, W, width, a, v). -/
  | dmemWrite (width : Nat) (a : Word) (v : Word)
  /-- (DMEM, R, width, a). -/
  | dmemRead (width : Nat) (a : Word)
  deriving DecidableEq, Repr

/-- What the bus carries back for a transaction (log 7). -/
inductive Response where
  /-- A write was taken with a normal response. -/
  | written
  /-- The value a read returns. -/
  | data (v : Word)
  /-- The error response of 60_exceptions.md R157. -/
  | busError
  deriving DecidableEq, Repr

/-- What can move the block (00_scope.md R12, 70_reset_and_hazards.md R164; log 4). -/
inductive Event where
  /-- One transaction of the Host. -/
  | host (t : Transaction)
  /-- A turn of the Engine: it completes the command in flight, if there is one. -/
  | engine
  /-- The reset input is asserted and released. -/
  | hwReset
  deriving DecidableEq, Repr

/-- A register-window access is 32 bits wide at a 4-byte-aligned offset (20_memory.md R51). -/
def legalRegAccess (width : Nat) (off : Offset) : Bool :=
  width == 4 && off.toNat % 4 == 0

/-- A DMEM access is 1, 2 or 4 bytes, naturally aligned, inside MEM_BYTES (20_memory.md R48, R49). -/
def legalDmemAccess (memBytes width : Nat) (a : Word) : Bool :=
  (width == 1 || width == 2 || width == 4) && a.toNat % width == 0 && decide (a.toNat + width ≤ memBytes)

end Sys2Proof.Machine
end

