-- ==== Sys2Proof/Syntax.lean ====
section
/-! DEFINITION. The instructions: one constructor per row of spec/opcode_table.json. -/

namespace Sys2Proof

/-- The five commands of the opcode map (30_encoding.md R73) and the soft-reset trigger (R80). `cont` is the
continue-sequence modifier, an argument only of the two commands with which it is legal (R72, R77). -/
inductive Instr where
  /-- NOP, CMD word 0x0000_0000 (40_command_lifecycle.md R99). -/
  | nop
  /-- CSC_FWD, CMD word 0x0000_0001 (41_color_forward.md R116). -/
  | cscFwd
  /-- CSC_INV, CMD word 0x0000_0002 (42_color_inverse.md R128). -/
  | cscInv
  /-- DELTA_FWD and DELTA_FWD.cont, CMD words 0x003 and 0x103 (43_temporal_delta.md R137). -/
  | deltaFwd (cont : Bool)
  /-- DELTA_INV and DELTA_INV.cont, CMD words 0x004 and 0x104 (43_temporal_delta.md R138). -/
  | deltaInv (cont : Bool)
  /-- SOFT_RESET, a CTRL write with bit 0 = 1 (40_command_lifecycle.md R104). -/
  | softReset
  deriving DecidableEq, Repr

/-- The three fields of a command word as bits (30_encoding.md R72), legal or not. -/
structure CommandFields where
  /-- OPCODE, bits [7:0]. -/
  opcode : BitVec 8
  /-- CONT, bit [8]. -/
  cont   : Bool
  /-- RSVD, bits [31:9]. -/
  rsvd   : BitVec 23
  deriving DecidableEq, Repr

end Sys2Proof
end

