-- ==== Sys2Proof/Decode.lean ====
section
/-! DEFINITION. The decoder of register-window writes (30_encoding.md R72–R80), total on words and on bytes, and the
encoder written from the same table. -/

namespace Sys2Proof

/-- Why a word written to CMD is no command (30_encoding.md R79). -/
inductive Illegal where
  /-- E_OPCODE: OPCODE in 0x05 .. 0xFF (R76). -/
  | opcode
  /-- E_RSVD: RSVD ≠ 0, or CONT = 1 with opcode 0x00, 0x01 or 0x02 (R77). -/
  | rsvd
  deriving DecidableEq, Repr

/-- What the decoder makes of a register-window write. -/
inductive Decoded where
  | instr (i : Instr)
  /-- A CMD word that is rejected. -/
  | illegal (e : Illegal)
  /-- A write that carries no instruction: any other register, or CTRL with bit 0 = 0 (R80). -/
  | noInstr
  /-- Fewer than the four byte lanes of a register write. -/
  | truncated
  deriving DecidableEq, Repr

/-- OPCODE, CONT and RSVD of a command word (30_encoding.md R72). -/
def commandFields (w : Word) : CommandFields :=
  { opcode := w.extractLsb' 0 8, cont := w.getLsbD 8, rsvd := w.extractLsb' 9 23 }

/-- The command of a legal opcode, with its CONT bit (30_encoding.md R73, R77). -/
def commandOf (opcode : Nat) (cont : Bool) : Decoded :=
  match opcode, cont with
  | 0x00, false => .instr .nop
  | 0x01, false => .instr .cscFwd
  | 0x02, false => .instr .cscInv
  | 0x03, c => .instr (.deltaFwd c)
  | 0x04, c => .instr (.deltaInv c)
  | 0x00, true => .illegal .rsvd
  | 0x01, true => .illegal .rsvd
  | 0x02, true => .illegal .rsvd
  | _, _ => .illegal .opcode

/-- `decode` of a word written to CMD: the opcode is checked before the reserved bits (30_encoding.md R79). -/
def decodeCommand (w : Word) : Decoded :=
  let f := commandFields w
  if 0x05 ≤ f.opcode.toNat then .illegal .opcode
  else if f.rsvd ≠ 0#23 then .illegal .rsvd
  else commandOf f.opcode.toNat f.cont

/-- A value written to CTRL: bit 0 = 1 is SOFT_RESET, bits [31:1] are ignored (30_encoding.md R80). -/
def decodeControl (w : Word) : Decoded :=
  if w.getLsbD 0 then .instr .softReset else .noInstr

/-- A register-window write as an instruction: only CMD and CTRL carry one (30_encoding.md R71). -/
def decodeWrite (off : Offset) (w : Word) : Decoded :=
  match Machine.regAt off with
  | some .cmd => decodeCommand w
  | some .ctrl => decodeControl w
  | _ => .noInstr

/-- Byte lane k of a word: bits [8k+7:8k] (20_memory.md R51). -/
def byteLane (w : Word) (k : Nat) : Byte := w.extractLsb' (8 * k) 8

/-- The word four byte lanes carry, lane 0 the least significant (20_memory.md R51). -/
def wordOfLanes (b0 b1 b2 b3 : Byte) : Word := b3 ++ b2 ++ b1 ++ b0

/-- The decoder on the bytes of a register write, first lane first. -/
def decodeBytes (off : Offset) : List Byte → Decoded
  | b0 :: b1 :: b2 :: b3 :: _ => decodeWrite off (wordOfLanes b0 b1 b2 b3)
  | _ => .truncated

/-- The command word with the given fields (30_encoding.md R72). -/
def commandWord (f : CommandFields) : Word := f.rsvd ++ BitVec.ofBool f.cont ++ f.opcode

/-- The register offset and the word that carry an instruction (30_encoding.md R73, R80). -/
def encode : Instr → Offset × Word
  | .nop => (Machine.regOffset .cmd, commandWord { opcode := 0x00#8, cont := false, rsvd := 0#23 })
  | .cscFwd => (Machine.regOffset .cmd, commandWord { opcode := 0x01#8, cont := false, rsvd := 0#23 })
  | .cscInv => (Machine.regOffset .cmd, commandWord { opcode := 0x02#8, cont := false, rsvd := 0#23 })
  | .deltaFwd c => (Machine.regOffset .cmd, commandWord { opcode := 0x03#8, cont := c, rsvd := 0#23 })
  | .deltaInv c => (Machine.regOffset .cmd, commandWord { opcode := 0x04#8, cont := c, rsvd := 0#23 })
  | .softReset => (Machine.regOffset .ctrl, 0x00000001#32)

/-- The register a word of spec/opcode_table.json is written to. The table numbers CMD words and CTRL words alike, so
the register must be told from the word: a row given fewer than 32 bits is the CTRLW row, whose only bit is bit 0;
a 32-bit word that is a legal command is read as CMD; any other is read as CTRL (log 9). -/
def tableOffset (nbits : Nat) (w : Word) : Offset :=
  if nbits < 32 then Machine.regOffset .ctrl
  else match decodeCommand w with
    | .instr _ => Machine.regOffset .cmd
    | _ => Machine.regOffset .ctrl

/-- The instruction of a word numbered as spec/opcode_table.json numbers it, read through its byte lanes. -/
def decodeTableWord (nbits w : Nat) : Option Instr :=
  let v := BitVec.ofNat 32 w
  match decodeBytes (tableOffset nbits v) [byteLane v 0, byteLane v 1, byteLane v 2, byteLane v 3] with
  | .instr i => some i
  | _ => none

end Sys2Proof
end

