-- ==== Sys2Proof/Config.lean ====
section
/-! DEFINITION. What an implementation fixes (MEM_BYTES, REG_BASE, DMEM_BASE) and the free values (the spec's draws). -/

namespace Sys2Proof

/-- Any natural number; only `Config.memBytes` reads it. It has no value in Lean. -/
opaque Config.memBytesSeed : Nat

/-- MEM_BYTES, OPEN (00_scope.md R8): some integer from 16 to 2^31, every one of them possible and none chosen
(log 1). `State.reset` takes it; a state of another legal size is a state too (`Memory.size`). -/
def Config.memBytes : Nat := 16 + Config.memBytesSeed % (2 ^ 31 - 15)

/-- REG_BASE, OPEN (00_scope.md R8): the platform address of the register window. Nothing constrains it (log 17). -/
opaque Config.regBase : Nat

/-- DMEM_BASE, OPEN (00_scope.md R8): the platform address of DMEM byte 0. Nothing constrains it (log 17). -/
opaque Config.dmemBase : Nat

/-- The byte a hardware reset leaves at a DMEM address (93_implementation_defined.md U3), for each reset and each
address a value of its own. A free value: nothing constrains it (log 2). -/
opaque Config.resetByte : Nat → Nat → Byte

/-- The n-th draw of the run (93_implementation_defined.md U1, U2). A free value: nothing constrains it (log 3). -/
opaque Config.draw : Nat → Byte

end Sys2Proof
end

