-- ==== Sys2Proof/Machine/State.lean ====
section
/-! DEFINITION. The state of the block as plain data (10_state.md R44), and the state after a hardware reset
(70_reset_and_hazards.md R166). -/

namespace Sys2Proof.Machine

/-- Why a run is faulted (10_state.md R44): the record of a transaction the spec forbids. The machine goes on after
one, as the hardware does; no step stops with one (log 5). -/
inductive Fault where
  /-- Recorded by a host transaction of illegal width, alignment or address (60_exceptions.md R157), which has no
  other effect than its error response. Safe: the record only adds a mark that no claim of a clean run can carry. -/
  | busFault (t : Transaction)
  /-- Recorded by a host DMEM write into a region of the command in flight (60_exceptions.md R158). Safe: the
  destination of that command then takes free values (log 6). -/
  | hazardFault (t : Transaction)
  deriving DecidableEq, Repr

/-- Why an instruction has no meaning. -/
inductive Refusal where
  /-- Raised only by an arm of `exec` whose instruction has no meaning yet; no arm is such. Safe. -/
  | notModelled (mnemonic : String)
  deriving DecidableEq, Repr

/-- The command an OPCODE stands for (30_encoding.md R73), as the operand latch holds it. -/
inductive Op where
  | nop | cscFwd | cscInv | deltaFwd | deltaInv
  deriving DecidableEq, Repr

/-- The error codes of ERR_CODE, less OK (60_exceptions.md R145). -/
inductive ErrName where
  | opcode | rsvd | dim | range | overlap
  deriving DecidableEq, Repr

/-- The registers that hold bits (10_state.md R44). -/
structure Regs where
  /-- CMD (R24). -/
  cmd        : Word
  /-- IRQ_STATUS: DONE is bit 0, ERR bit 1, OVERRUN bit 2 (R26). -/
  irqStatus  : BitVec 3
  /-- IRQ_ENABLE: DONE_EN, ERR_EN, OVERRUN_EN (R27). -/
  irqEnable  : BitVec 3
  /-- ERR_CODE.CODE (R28). -/
  errCode    : BitVec 8
  /-- ERR_INFO (R29). -/
  errInfo    : Word
  /-- WIDTH.W (R30). -/
  width      : BitVec 16
  /-- HEIGHT.H (R31). -/
  height     : BitVec 16
  /-- FRAME_COUNT.N (R32). -/
  frameCount : BitVec 16
  /-- SRC_ADDR (R33). -/
  srcAddr    : Word
  /-- DST_ADDR (R34). -/
  dstAddr    : Word
  /-- REF_ADDR (R35). -/
  refAddr    : Word
  deriving DecidableEq, Repr

/-- Every register at its reset value (70_reset_and_hazards.md R166). -/
def Regs.reset : Regs where
  cmd := 0#32
  irqStatus := 0#3
  irqEnable := 0#3
  errCode := 0x00#8
  errInfo := 0#32
  width := 0#16
  height := 0#16
  frameCount := 0#16
  srcAddr := 0#32
  dstAddr := 0#32
  refAddr := 0#32

/-- The operand latch L (10_state.md R39). -/
structure Latch where
  op   : Op
  cont : Bool
  w    : BitVec 16
  h    : BitVec 16
  n    : BitVec 16
  src  : Word
  dst  : Word
  ref  : Word
  deriving DecidableEq, Repr

/-- The pending-command record P (10_state.md R40). -/
structure Pending where
  latch  : Latch
  /-- The bytes the command will write at L.DST. -/
  out    : List Byte
  /-- The model's own mark: a host write has met a region of this command (60_exceptions.md R158; log 6). -/
  hazard : Bool
  deriving DecidableEq, Repr

/-- The engine state (10_state.md R38). -/
inductive Engine where
  | idle
  | busy (p : Pending)
  deriving DecidableEq, Repr

/-- DMEM (20_memory.md R47): its size MEM_BYTES, the bytes written since the latest hardware reset as rising
(address, byte) pairs, and the number of that reset, which names the bytes it left (logs 1 and 2). -/
structure Memory where
  size  : Nat
  era   : Nat
  cells : List Host.Cell
  deriving DecidableEq, Repr

/-- The whole state (10_state.md R44); the last three fields are the model's own (logs 3, 4, 7). -/
structure State where
  regs     : Regs
  engine   : Engine
  dmem     : Memory
  /-- The model's record of a forbidden host action or bus error; never cleared (R44). -/
  fault    : Option Fault
  /-- How many draws have been taken (10_state.md R43: the draws are parameters of the step). -/
  draws    : Nat
  /-- The events still to come, the next one first. -/
  inbox    : List Event
  /-- The answer to the latest host transaction. -/
  response : Option Response
  deriving DecidableEq, Repr

/-- The state after a hardware reset of a block with `memBytes` bytes of DMEM (70_reset_and_hazards.md R164, R166). -/
def State.resetWith (memBytes : Nat) : State where
  regs := Regs.reset
  engine := .idle
  dmem := { size := memBytes, era := 0, cells := [] }
  fault := none
  draws := 0
  inbox := []
  response := none

/-- The state after a hardware reset (70_reset_and_hazards.md R166), with the block's own MEM_BYTES, of a run that has
recorded no fault yet (log 18). -/
def State.reset : State := State.resetWith Config.memBytes

end Sys2Proof.Machine
end

