-- ==== Sys2Proof/Machine/Flags.lean ====
section
/-! DEFINITION. The status flags (10_state.md R20), the interrupt line and the acknowledge. -/

namespace Sys2Proof.Machine

/-- IRQ_STATUS.DONE, bit 0 (10_state.md R26). -/
def flagDone : BitVec 3 := 0b001#3

/-- IRQ_STATUS.ERR, bit 1 (10_state.md R26). -/
def flagErr : BitVec 3 := 0b010#3

/-- IRQ_STATUS.OVERRUN, bit 2 (10_state.md R26). -/
def flagOverrun : BitVec 3 := 0b100#3

/-- Setting a sticky bit leaves the others as they are (10_state.md R26). -/
def raiseFlag (flag status : BitVec 3) : BitVec 3 := status ||| flag

/-- The low three bits of a written value, the only ones that act (10_state.md R26, R27). -/
def flagBits (v : Word) : BitVec 3 := v.extractLsb' 0 3

/-- A W1C write: IRQ_STATUS AND NOT v[2:0] (40_command_lifecycle.md R105). -/
def acknowledge (status : BitVec 3) (v : Word) : BitVec 3 := status &&& ~~~ flagBits v

/-- The interrupt output, a level (10_state.md R41, 60_exceptions.md R152). -/
def State.irq (s : State) : Bool := (s.regs.irqStatus &&& s.regs.irqEnable) != 0#3

/-- STATUS.BUSY: 1 exactly when the engine is Busy (10_state.md R38). -/
def State.busy (s : State) : Bool :=
  match s.engine with
  | .idle => false
  | .busy _ => true

end Sys2Proof.Machine
end

