-- ==== Sys2Proof/Machine/Operands.lean ====
section
/-! DEFINITION. The operand latch, frame lengths, regions, and validation (40_command_lifecycle.md R91–R95). -/

namespace Sys2Proof.Machine

/-- The latch copies the operand registers at issue (10_state.md R39). -/
def latch (op : Op) (cont : Bool) (r : Regs) : Latch where
  op := op
  cont := cont
  w := r.width
  h := r.height
  n := r.frameCount
  src := r.srcAddr
  dst := r.dstAddr
  ref := r.refAddr

/-- LRAW, the bytes of a RawFrame (20_memory.md R56). -/
def lRaw (W H : Nat) : Nat := W * H * 3

/-- LY, the bytes of the luma plane (20_memory.md R56). -/
def lLuma (W H : Nat) : Nat := W * H

/-- LC, the bytes of one chroma plane (20_memory.md R56). -/
def lChroma (W H : Nat) : Nat := W * H / 4

/-- LPLANAR, the bytes of a PlanarFrame or DeltaFrame (20_memory.md R56). -/
def lPlanar (W H : Nat) : Nat := W * H * 3 / 2

/-- LRAW of the latched dimensions. -/
def Latch.lRaw (L : Latch) : Nat := Machine.lRaw L.w.toNat L.h.toNat

/-- LPLANAR of the latched dimensions. -/
def Latch.lPlanar (L : Latch) : Nat := Machine.lPlanar L.w.toNat L.h.toNat

/-- A DMEM byte range; length 0 holds no byte (40_command_lifecycle.md R93). -/
structure Region where
  base : Nat
  len  : Nat
  deriving DecidableEq, Repr

/-- "None" (40_command_lifecycle.md R93). -/
def Region.none : Region := { base := 0, len := 0 }

/-- The three regions of a command. -/
structure Regions where
  src : Region
  dst : Region
  ref : Region
  deriving DecidableEq, Repr

/-- The reference region: one PlanarFrame, only with CONT = 1 and N ≥ 1 (40_command_lifecycle.md R93). -/
def Latch.refRegion (L : Latch) : Region :=
  if L.cont ∧ L.n ≠ 0#16 then { base := L.ref.toNat, len := L.lPlanar } else .none

/-- The regions of each command (40_command_lifecycle.md R93), on unbounded integers. -/
def Latch.regions (L : Latch) : Regions :=
  match L.op with
  | .nop => { src := .none, dst := .none, ref := .none }
  | .cscFwd =>
    { src := { base := L.src.toNat, len := L.n.toNat * L.lRaw }
      dst := { base := L.dst.toNat, len := L.n.toNat * L.lPlanar }
      ref := .none }
  | .cscInv =>
    { src := { base := L.src.toNat, len := L.n.toNat * L.lPlanar }
      dst := { base := L.dst.toNat, len := L.n.toNat * L.lRaw }
      ref := .none }
  | .deltaFwd =>
    { src := { base := L.src.toNat, len := L.n.toNat * L.lPlanar }
      dst := { base := L.dst.toNat, len := L.n.toNat * L.lPlanar }
      ref := L.refRegion }
  | .deltaInv =>
    { src := { base := L.src.toNat, len := L.n.toNat * L.lPlanar }
      dst := { base := L.dst.toNat, len := L.n.toNat * L.lPlanar }
      ref := L.refRegion }

/-- Whether an address lies in a region. -/
def Region.contains (x : Region) (a : Nat) : Bool := decide (x.base ≤ a ∧ a < x.base + x.len)

/-- Two regions overlap (40_command_lifecycle.md R95). -/
def Region.overlaps (x y : Region) : Bool :=
  decide (0 < x.len ∧ 0 < y.len ∧ x.base < y.base + y.len ∧ y.base < x.base + x.len)

/-- A region ends past MEM_BYTES (40_command_lifecycle.md R94). -/
def Region.outOfRange (memBytes : Nat) (x : Region) : Bool :=
  decide (0 < x.len ∧ memBytes < x.base + x.len)

/-- [a, a+n) shares a byte with the source, destination or reference region (40_command_lifecycle.md R89). -/
def Latch.meets (L : Latch) (a n : Nat) : Bool :=
  let x : Region := { base := a, len := n }
  x.overlaps L.regions.src || x.overlaps L.regions.dst || x.overlaps L.regions.ref

/-- ERR_CODE's value for an error (60_exceptions.md R145). -/
def errCodeOf : ErrName → BitVec 8
  | .opcode => 0x01#8
  | .rsvd => 0x02#8
  | .dim => 0x03#8
  | .range => 0x04#8
  | .overlap => 0x05#8

/-- An error with its information word (60_exceptions.md R146). -/
structure CommandError where
  name : ErrName
  info : Word
  deriving DecidableEq, Repr

/-- A dimension that is zero or odd (40_command_lifecycle.md R92). -/
def badDimension (x : BitVec 16) : Bool := x.toNat == 0 || x.toNat % 2 == 1

/-- ERR_INFO of E_DIM: bit 0 for W, bit 1 for H; 0 where both are good (40_command_lifecycle.md R92). -/
def dimensionInfo (L : Latch) : Nat :=
  (if badDimension L.w then 1 else 0) + (if badDimension L.h then 2 else 0)

/-- The first region out of range: 0 SRC, 1 DST, 2 REF (40_command_lifecycle.md R94). -/
def rangeInfo (memBytes : Nat) (L : Latch) : Option Nat :=
  if L.regions.src.outOfRange memBytes then some 0
  else if L.regions.dst.outOfRange memBytes then some 1
  else if L.regions.ref.outOfRange memBytes then some 2
  else none

/-- The forbidden overlap: 0 SRC/DST, 1 REF/DST (40_command_lifecycle.md R95). -/
def overlapInfo (L : Latch) : Option Nat :=
  let r := L.regions
  match L.op with
  | .nop => none
  | .cscFwd => if r.src.overlaps r.dst then some 0 else none
  | .cscInv => if r.src.overlaps r.dst then some 0 else none
  | .deltaFwd =>
    if r.src.overlaps r.dst && r.src.base != r.dst.base then some 0
    else if r.ref.overlaps r.dst then some 1 else none
  | .deltaInv =>
    if r.src.overlaps r.dst && r.src.base != r.dst.base then some 0
    else if r.ref.overlaps r.dst then some 1 else none

/-- Validation of a decoded command, its checks in priority order (40_command_lifecycle.md R92); the two checks of
the word itself are the decoder's. `none` is Ok. -/
def validate (memBytes : Nat) (L : Latch) : Option CommandError :=
  if L.op = .nop then none
  else if dimensionInfo L ≠ 0 then some { name := .dim, info := BitVec.ofNat 32 (dimensionInfo L) }
  else match rangeInfo memBytes L with
    | some k => some { name := .range, info := BitVec.ofNat 32 k }
    | none => match overlapInfo L with
      | some k => some { name := .overlap, info := BitVec.ofNat 32 k }
      | none => none

end Sys2Proof.Machine
end

