-- ==== Sys2Proof/Machine/Ops.lean ====
section
/-! DEFINITION. The named operations: DMEM, registers, the completions of a command, overrun, acceptance, the two
resets, the fault record. -/

namespace Sys2Proof.Machine

/-! ## DMEM -/

/-- The byte written at an address since the latest hardware reset, if any. -/
def cellAt (a : Nat) : List Host.Cell → Option Byte
  | [] => none
  | (x, b) :: rest => if x = a then some b else cellAt a rest

/-- Puts a byte into rising cells, in place of the one that is there. -/
def putCell (a : Nat) (b : Byte) : List Host.Cell → List Host.Cell
  | [] => [(a, b)]
  | (x, c) :: rest =>
    if a < x then (a, b) :: (x, c) :: rest
    else if a = x then (a, b) :: rest
    else (x, c) :: putCell a b rest

/-- The addresses of the cells rise strictly and start at `lo` or later. -/
def risingFrom (lo : Nat) : List Host.Cell → Bool
  | [] => true
  | (x, _) :: rest => decide (lo ≤ x) && risingFrom (x + 1) rest

/-- The canonical form of DMEM: rising addresses, all of them backed. An unlisted address holds no written byte, so no
listed cell can equal it (log 2). -/
def Memory.wf (m : Memory) : Bool :=
  risingFrom 0 m.cells && m.cells.all fun c => decide (c.1 < m.size)

/-- DMem(a): the byte written there, or the byte the latest hardware reset left (20_memory.md R47,
70_reset_and_hazards.md R170). -/
def Memory.read (m : Memory) (a : Nat) : Byte := (cellAt a m.cells).getD (Config.resetByte m.era a)

/-- Whether a byte has been written since the latest hardware reset (70_reset_and_hazards.md R170). -/
def Memory.written (m : Memory) (a : Nat) : Bool := (cellAt a m.cells).isSome

/-- DMem(a) <- b; an address at or above MEM_BYTES is not backed and holds nothing (20_memory.md R47; log 10). -/
def Memory.write (m : Memory) (a : Nat) (b : Byte) : Memory :=
  if a < m.size then { m with cells := putCell a b m.cells } else m

/-- MemRead(a, n) (00_scope.md R10). -/
def Memory.readBytes (m : Memory) (a n : Nat) : List Byte := (List.range n).map fun k => m.read (a + k)

/-- MemWrite(a, length bs, bs) (00_scope.md R10). -/
def Memory.writeBytes (m : Memory) (a : Nat) : List Byte → Memory
  | [] => m
  | b :: bs => (m.write a b).writeBytes (a + 1) bs

/-- Every byte unspecified again, by a hardware reset (70_reset_and_hazards.md R164). -/
def Memory.reset (m : Memory) : Memory := { m with era := m.era + 1, cells := [] }

/-- The bytes of a value of width n, the least significant first (20_memory.md R50). -/
def littleEndian (n : Nat) (v : Word) : List Byte := (List.range n).map fun k => byteLane v k

/-- The sum over k of b_k · 256^k (20_memory.md R50). -/
def littleEndianValue : List Byte → Nat
  | [] => 0
  | b :: bs => b.toNat + 256 * littleEndianValue bs

/-- `n` draws, the first of them the `first`-th of the run (93_implementation_defined.md U1, U2). -/
def drawn (first n : Nat) : List Byte := (List.range n).map fun k => Config.draw (first + k)

/-! ## Commands -/

/-- reg[CMD] <- w at issue (40_command_lifecycle.md R91). -/
def State.storeCommand (s : State) (w : Word) : State := { s with regs := { s.regs with cmd := w } }

/-- Error completion (40_command_lifecycle.md R96): the block's counterpart of an exception. -/
def State.completeError (s : State) (code : BitVec 8) (info : Word) : State :=
  { s with regs := { s.regs with
      errCode := code, errInfo := info, irqStatus := raiseFlag flagErr s.regs.irqStatus } }

/-- Success is recorded: ERR_CODE and ERR_INFO 0, DONE set (40_command_lifecycle.md R97, R101). -/
def State.completeEmpty (s : State) : State :=
  { s with regs := { s.regs with
      errCode := 0x00#8, errInfo := 0#32, irqStatus := raiseFlag flagDone s.regs.irqStatus } }

/-- Acceptance: the engine is Busy with the latch and its output (40_command_lifecycle.md R98). -/
def State.accept (s : State) (L : Latch) (out : List Byte) : State :=
  { s with engine := .busy { latch := L, out := out, hazard := false } }

/-- A CMD write while Busy sets OVERRUN and nothing else (40_command_lifecycle.md R103). -/
def State.overrun (s : State) : State :=
  { s with regs := { s.regs with irqStatus := raiseFlag flagOverrun s.regs.irqStatus } }

/-- Issue of a decoded command word (40_command_lifecycle.md R91, R103). `f` is the command's F_op (R100). -/
def State.issue (s : State) (op : Op) (cont : Bool) (w : Word) (f : Latch → (Nat → Byte) → List Byte) : State :=
  match s.engine with
  | .busy _ => s.overrun
  | .idle =>
    let L := latch op cont s.regs
    match validate s.dmem.size L with
    | some e => (s.storeCommand w).completeError (errCodeOf e.name) e.info
    | none =>
      if L.op = .nop ∨ L.n = 0#16 then (s.storeCommand w).completeEmpty
      else (s.storeCommand w).accept L (f L s.dmem.read)

/-- ERR_CODE's name for a word the decoder rejects (30_encoding.md R79). -/
def illegalName : Illegal → ErrName
  | .opcode => .opcode
  | .rsvd => .rsvd

/-- Issue of a word the decoder rejects: it is stored in CMD and completes with the word as ERR_INFO; while Busy it is
an overrun (30_encoding.md R76, R77, 40_command_lifecycle.md R91, R103). -/
def State.issueIllegal (s : State) (e : Illegal) (w : Word) : State :=
  match s.engine with
  | .busy _ => s.overrun
  | .idle => (s.storeCommand w).completeError (errCodeOf (illegalName e)) w

/-- Every byte of the DST region of a latch takes a draw (93_implementation_defined.md U2, U4). -/
def State.drawDestination (s : State) (L : Latch) : State :=
  let n := L.regions.dst.len
  { s with dmem := s.dmem.writeBytes L.regions.dst.base (drawn s.draws n), draws := s.draws + n }

/-- The destination of a command at its completion: its output, or draws where a host write met its regions
(40_command_lifecycle.md R101, 60_exceptions.md R158; log 6). -/
def State.storeOutput (s : State) (p : Pending) : State :=
  if p.hazard then s.drawDestination p.latch
  else { s with dmem := s.dmem.writeBytes p.latch.dst.toNat p.out }

/-- The completion step of the engine, enabled exactly when it is Busy (40_command_lifecycle.md R101). -/
def State.engineStep (s : State) : State :=
  match s.engine with
  | .idle => s
  | .busy p => { (s.storeOutput p).completeEmpty with engine := .idle }

/-! ## Resets -/

/-- The destination of an aborted command becomes unspecified (70_reset_and_hazards.md R165). -/
def State.abort (s : State) : State :=
  match s.engine with
  | .idle => s
  | .busy p => s.drawDestination p.latch

/-- softReset() (70_reset_and_hazards.md R165). -/
def State.softReset (s : State) : State := { s.abort with engine := .idle, regs := Regs.reset }

/-- A hardware reset; the fault record is kept (70_reset_and_hazards.md R164, R166). -/
def State.hwReset (s : State) : State :=
  { s with regs := Regs.reset, engine := .idle, dmem := s.dmem.reset }

/-! ## Answers and the fault record -/

/-- The answer of the bus to the transaction at hand (log 7). -/
def State.respond (s : State) (r : Response) : State := { s with response := some r }

/-- The record holds the first forbidden action and is never cleared (10_state.md R44; log 5). -/
def State.recordFault (s : State) (f : Fault) : State := { s with fault := s.fault.or (some f) }

/-- busError(): nothing is performed, the bus answers with an error, the model records it (60_exceptions.md R157). -/
def State.busError (s : State) (t : Transaction) : State := (s.recordFault (.busFault t)).respond .busError

/-- hazardFault(): the record, and the mark on the command in flight (60_exceptions.md R158). -/
def State.hazard (s : State) (p : Pending) (t : Transaction) : State :=
  { s.recordFault (.hazardFault t) with engine := .busy { p with hazard := true } }

end Sys2Proof.Machine
end

