-- ==== Sys2Proof/Machine/ColorForward.lean ====
section
/-! DEFINITION. rgb_to_yuv_convert, chroma_subsample_4_2_0 and CSC_FWD (41_color_forward.md). -/

namespace Sys2Proof.Machine

/-- The three channels of a pixel: red, green, blue (20_memory.md R58). -/
structure Pixel where
  c0 : Byte
  c1 : Byte
  c2 : Byte
  deriving DecidableEq, Repr

/-- 10000·y (41_color_forward.md R111). -/
def y10k (p : Pixel) : Int := 2990 * p.c0.toNat + 5870 * p.c1.toNat + 1140 * p.c2.toNat

/-- The luma byte, truncated by floor (41_color_forward.md R111, R113). -/
def yByte (p : Pixel) : Byte := BitVec.ofInt 8 (y10k p / 10000)

/-- 10000·u (41_color_forward.md R112). -/
def u10k (p : Pixel) : Int := -1690 * p.c0.toNat - 3310 * p.c1.toNat + 4490 * p.c2.toNat + 1280000

/-- 10000·v (41_color_forward.md R112). -/
def v10k (p : Pixel) : Int := 4990 * p.c0.toNat - 4180 * p.c1.toNat - 813 * p.c2.toNat + 1280000

/-- The truncated mean of a block's four u values, averaged before truncation (41_color_forward.md R115). -/
def uBlock (p0 p1 p2 p3 : Pixel) : Byte :=
  BitVec.ofInt 8 ((u10k p0 + u10k p1 + u10k p2 + u10k p3) / 40000)

/-- The truncated mean of a block's four v values (41_color_forward.md R115). -/
def vBlock (p0 p1 p2 p3 : Pixel) : Byte :=
  BitVec.ofInt 8 ((v10k p0 + v10k p1 + v10k p2 + v10k p3) / 40000)

/-- Pixel (r, c) of the RawFrame at base `s` (20_memory.md R58). -/
def rawPixel (M : Nat → Byte) (W s r c : Nat) : Pixel where
  c0 := M (s + 3 * (r * W + c))
  c1 := M (s + 3 * (r * W + c) + 1)
  c2 := M (s + 3 * (r * W + c) + 2)

/-- Byte j of the PlanarFrame made from the RawFrame at base `s`: the luma plane, then U, then V, each row-major
(20_memory.md R59, 41_color_forward.md R116). -/
def planarByte (M : Nat → Byte) (W H s j : Nat) : Byte :=
  if j < lLuma W H then yByte (rawPixel M W s (j / W) (j % W))
  else if j < lLuma W H + lChroma W H then
    let b := j - lLuma W H
    let r := 2 * (b / (W / 2))
    let c := 2 * (b % (W / 2))
    uBlock (rawPixel M W s r c) (rawPixel M W s r (c + 1))
      (rawPixel M W s (r + 1) c) (rawPixel M W s (r + 1) (c + 1))
  else
    let b := j - (lLuma W H + lChroma W H)
    let r := 2 * (b / (W / 2))
    let c := 2 * (b % (W / 2))
    vBlock (rawPixel M W s r c) (rawPixel M W s r (c + 1))
      (rawPixel M W s (r + 1) c) (rawPixel M W s (r + 1) (c + 1))

/-- F_CSC_FWD (41_color_forward.md R116): byte k of the output is byte k mod LPLANAR of frame k div LPLANAR. -/
def fCscFwd (L : Latch) (M : Nat → Byte) : List Byte :=
  (List.range (L.n.toNat * L.lPlanar)).map fun k =>
    planarByte M L.w.toNat L.h.toNat (L.src.toNat + k / L.lPlanar * L.lRaw) (k % L.lPlanar)

/-- CSC_FWD (41_color_forward.md R116). -/
def execCscFwd (s : State) : Host.Outcome State Fault Refusal :=
  .next (s.issue .cscFwd false (encode .cscFwd).2 fCscFwd)

end Sys2Proof.Machine
end

