-- ==== Sys2Proof/Machine/ColorInverse.lean ====
section
/-! DEFINITION. chroma_upsample_4_2_0, yuv_to_rgb_convert and CSC_INV (42_color_inverse.md). -/

namespace Sys2Proof.Machine

/-- A luma byte with its block's chroma pair (42_color_inverse.md R119, R120). -/
structure Yuv where
  y : Byte
  u : Byte
  v : Byte
  deriving DecidableEq, Repr

/-- 1000·r before the clamp (42_color_inverse.md R122). -/
def r1k (p : Yuv) : Int := 1000 * p.y.toNat + 1402 * ((p.v.toNat : Int) - 128)

/-- 1000·g before the clamp (42_color_inverse.md R122). -/
def g1k (p : Yuv) : Int := 1000 * p.y.toNat - 344 * ((p.u.toNat : Int) - 128) - 714 * ((p.v.toNat : Int) - 128)

/-- 1000·b before the clamp (42_color_inverse.md R122). -/
def b1k (p : Yuv) : Int := 1000 * p.y.toNat + 1772 * ((p.u.toNat : Int) - 128)

/-- Clamp, then truncate (42_color_inverse.md R123). -/
def chan (x : Int) : Byte :=
  if x < 0 then 0#8 else if 255000 ≤ x then 255#8 else BitVec.ofInt 8 (x / 1000)

/-- Channel k of the converted pixel: red, green, blue (42_color_inverse.md R128). -/
def rgbChannel (k : Nat) (p : Yuv) : Byte :=
  match k with
  | 0 => chan (r1k p)
  | 1 => chan (g1k p)
  | _ => chan (b1k p)

/-- The luma of pixel (r, c) of the PlanarFrame at base `s`, and the chroma pair of its block, with no filtering
(42_color_inverse.md R119, R120). -/
def planarPixel (M : Nat → Byte) (W H s r c : Nat) : Yuv where
  y := M (s + r * W + c)
  u := M (s + lLuma W H + r / 2 * (W / 2) + c / 2)
  v := M (s + lLuma W H + lChroma W H + r / 2 * (W / 2) + c / 2)

/-- Byte j of the RawFrame made from the PlanarFrame at base `s` (20_memory.md R58, 42_color_inverse.md R128). -/
def rawByte (M : Nat → Byte) (W H s j : Nat) : Byte :=
  rgbChannel (j % 3) (planarPixel M W H s (j / 3 / W) (j / 3 % W))

/-- F_CSC_INV (42_color_inverse.md R128): byte k of the output is byte k mod LRAW of frame k div LRAW. -/
def fCscInv (L : Latch) (M : Nat → Byte) : List Byte :=
  (List.range (L.n.toNat * L.lRaw)).map fun k =>
    rawByte M L.w.toNat L.h.toNat (L.src.toNat + k / L.lRaw * L.lPlanar) (k % L.lRaw)

/-- CSC_INV (42_color_inverse.md R128). -/
def execCscInv (s : State) : Host.Outcome State Fault Refusal :=
  .next (s.issue .cscInv false (encode .cscInv).2 fCscInv)

end Sys2Proof.Machine
end

