-- ==== Sys2Proof/Machine/System.lean ====
section
/-! DEFINITION. NOP and SOFT_RESET (40_command_lifecycle.md R99, R104). -/

namespace Sys2Proof.Machine

/-- NOP (40_command_lifecycle.md R99): it has no operand, so no output. -/
def execNop (s : State) : Host.Outcome State Fault Refusal :=
  .next (s.issue .nop false (encode .nop).2 fun _ _ => [])

/-- SOFT_RESET (40_command_lifecycle.md R104). -/
def execSoftReset (s : State) : Host.Outcome State Fault Refusal := .next s.softReset

end Sys2Proof.Machine
end

