-- ==== Sys2Proof/Machine/TemporalDelta.lean ====
section
/-! DEFINITION. frame_delta_predictor, frame_delta_reconstructor, DELTA_FWD and DELTA_INV (43_temporal_delta.md). -/

namespace Sys2Proof.Machine

/-- (x − p) mod 256 (43_temporal_delta.md R130, R132). -/
def pred (x p : Byte) : Byte := x - p

/-- (q + e) mod 256 (43_temporal_delta.md R131, R132). -/
def recon (e q : Byte) : Byte := q + e

/-- Byte j of source frame i (20_memory.md R61). -/
def sourceByte (L : Latch) (M : Nat → Byte) (i j : Nat) : Byte := M (L.src.toNat + i * L.lPlanar + j)

/-- Byte j of the reference frame (10_state.md R35). -/
def referenceByte (L : Latch) (M : Nat → Byte) (j : Nat) : Byte := M (L.ref.toNat + j)

/-- Byte j of delta frame i: frame 0 is the keyframe, or is diffed against REF with CONT = 1; a later frame is diffed
against the original frame before it (43_temporal_delta.md R134, R135, R137). -/
def deltaFwdByte (L : Latch) (M : Nat → Byte) (i j : Nat) : Byte :=
  match i with
  | 0 => if L.cont then pred (sourceByte L M 0 j) (referenceByte L M j) else sourceByte L M 0 j
  | i' + 1 => pred (sourceByte L M (i' + 1) j) (sourceByte L M i' j)

/-- Byte j of reconstructed frame i, from the reconstructed frame before it (43_temporal_delta.md R134, R136, R138). -/
def deltaInvByte (L : Latch) (M : Nat → Byte) (i j : Nat) : Byte :=
  match i with
  | 0 => if L.cont then recon (sourceByte L M 0 j) (referenceByte L M j) else sourceByte L M 0 j
  | i' + 1 => recon (sourceByte L M (i' + 1) j) (deltaInvByte L M i' j)

/-- F_DELTA_FWD (43_temporal_delta.md R137). -/
def fDeltaFwd (L : Latch) (M : Nat → Byte) : List Byte :=
  (List.range (L.n.toNat * L.lPlanar)).map fun k => deltaFwdByte L M (k / L.lPlanar) (k % L.lPlanar)

/-- F_DELTA_INV (43_temporal_delta.md R138). -/
def fDeltaInv (L : Latch) (M : Nat → Byte) : List Byte :=
  (List.range (L.n.toNat * L.lPlanar)).map fun k => deltaInvByte L M (k / L.lPlanar) (k % L.lPlanar)

/-- DELTA_FWD and DELTA_FWD.cont (43_temporal_delta.md R137). -/
def execDeltaFwd (cont : Bool) (s : State) : Host.Outcome State Fault Refusal :=
  .next (s.issue .deltaFwd cont (encode (.deltaFwd cont)).2 fDeltaFwd)

/-- DELTA_INV and DELTA_INV.cont (43_temporal_delta.md R138). -/
def execDeltaInv (cont : Bool) (s : State) : Host.Outcome State Fault Refusal :=
  .next (s.issue .deltaInv cont (encode (.deltaInv cont)).2 fDeltaInv)

end Sys2Proof.Machine
end

