-- ==== Sys2Proof/Machine/Dispatch.lean ====
section
/-! DEFINITION. One arm per instruction. -/

namespace Sys2Proof.Machine

def exec (i : Instr) (s : State) : Host.Outcome State Fault Refusal :=
  match i with
  | .nop => Sys2Proof.Machine.execNop s
  | .cscFwd => Sys2Proof.Machine.execCscFwd s
  | .cscInv => Sys2Proof.Machine.execCscInv s
  | .deltaFwd cont => Sys2Proof.Machine.execDeltaFwd cont s
  | .deltaInv cont => Sys2Proof.Machine.execDeltaInv cont s
  | .softReset => Sys2Proof.Machine.execSoftReset s

end Sys2Proof.Machine
end

