-- ==== Sys2Proof/Machine/Bus.lean ====
section
/-! DEFINITION. The host's transactions (40_command_lifecycle.md R87–R90) and the events that move the block. -/

namespace Sys2Proof.Machine

/-- Where the host's bus places what a transaction reaches: the register window at REG_BASE and DMEM at DMEM_BASE
(00_scope.md R8, 60_exceptions.md R160). The block sees only the offset and the DMEM address (log 17). -/
def platformAddress : Transaction → Nat
  | .regWrite _ off _ => Config.regBase + off.toNat
  | .regRead _ off => Config.regBase + off.toNat
  | .dmemWrite _ a _ => Config.dmemBase + a.toNat
  | .dmemRead _ a => Config.dmemBase + a.toNat

/-- What a register reads as (40_command_lifecycle.md R88); reserved bits read 0 (10_state.md R19). -/
def readRegister (s : State) : RegName → Word
  | .id => 0x43533432#32
  | .version => 0x00000100#32
  | .ctrl => 0#32
  | .cmd => s.regs.cmd
  | .status => if s.busy then 1#32 else 0#32
  | .irqStatus => s.regs.irqStatus.setWidth 32
  | .irqEnable => s.regs.irqEnable.setWidth 32
  | .errCode => s.regs.errCode.setWidth 32
  | .errInfo => s.regs.errInfo
  | .width => s.regs.width.setWidth 32
  | .height => s.regs.height.setWidth 32
  | .frameCount => s.regs.frameCount.setWidth 32
  | .srcAddr => s.regs.srcAddr
  | .dstAddr => s.regs.dstAddr
  | .refAddr => s.regs.refAddr
  | .memSize => BitVec.ofNat 32 s.dmem.size

/-- What a register-window offset reads as; reserved offsets read 0 (40_command_lifecycle.md R88, R108). -/
def readOffset (s : State) (off : Offset) : Word :=
  match regAt off with
  | some r => readRegister s r
  | none => 0#32

/-- A write to a register other than CMD and CTRL (40_command_lifecycle.md R87, R105–R108): the field's bits are
stored, IRQ_STATUS is write-1-to-clear, and read-only registers ignore it. -/
def writeField (r : Regs) (name : RegName) (v : Word) : Regs :=
  match name with
  | .irqStatus => { r with irqStatus := acknowledge r.irqStatus v }
  | .irqEnable => { r with irqEnable := flagBits v }
  | .width => { r with width := v.extractLsb' 0 16 }
  | .height => { r with height := v.extractLsb' 0 16 }
  | .frameCount => { r with frameCount := v.extractLsb' 0 16 }
  | .srcAddr => { r with srcAddr := v }
  | .dstAddr => { r with dstAddr := v }
  | .refAddr => { r with refAddr := v }
  | .id => r
  | .version => r
  | .ctrl => r
  | .cmd => r
  | .status => r
  | .errCode => r
  | .errInfo => r
  | .memSize => r

/-- A write that the decoder reads as no instruction (40_command_lifecycle.md R87, R108). -/
def State.writeRegister (s : State) (off : Offset) (v : Word) : State :=
  match regAt off with
  | some r => { s with regs := writeField s.regs r v }
  | none => s

/-- mmioWrite (40_command_lifecycle.md R87): a write to CMD or CTRL that decodes runs its instruction. -/
def mmioWrite (width : Nat) (off : Offset) (v : Word) (s : State) : Host.Outcome State Fault Refusal :=
  if legalRegAccess width off then
    match decodeWrite off v with
    | .instr i => exec i (s.respond .written)
    | .illegal e => .next ((s.respond .written).issueIllegal e v)
    | .noInstr => .next ((s.respond .written).writeRegister off v)
    | .truncated => .next ((s.respond .written).writeRegister off v)
  else .next (s.busError (.regWrite width off v))

/-- mmioRead (40_command_lifecycle.md R88). -/
def mmioRead (width : Nat) (off : Offset) (s : State) : State :=
  if legalRegAccess width off then s.respond (.data (readOffset s off))
  else s.busError (.regRead width off)

/-- dmemWrite (40_command_lifecycle.md R89): a write that meets a region of the command in flight is performed and
recorded as a hazard. -/
def dmemWrite (n : Nat) (a v : Word) (s : State) : State :=
  if legalDmemAccess s.dmem.size n a then
    let t := { s with dmem := s.dmem.writeBytes a.toNat (littleEndian n v) }.respond .written
    match s.engine with
    | .idle => t
    | .busy p => if p.latch.meets a.toNat n then t.hazard p (.dmemWrite n a v) else t
  else s.busError (.dmemWrite n a v)

/-- The k-th byte of a DMEM read: a draw where it lies in the destination of the command in flight
(40_command_lifecycle.md R90, 93_implementation_defined.md U1). -/
def readByte (s : State) (a k : Nat) : Byte :=
  match s.engine with
  | .idle => s.dmem.read (a + k)
  | .busy p => if p.latch.regions.dst.contains (a + k) then Config.draw (s.draws + k) else s.dmem.read (a + k)

/-- The draws a DMEM read uses up: its width, if it meets the destination of the command in flight (log 3). -/
def drawsOfRead (s : State) (a n : Nat) : Nat :=
  match s.engine with
  | .idle => 0
  | .busy p => if Region.overlaps { base := a, len := n } p.latch.regions.dst then n else 0

/-- dmemRead (40_command_lifecycle.md R90). -/
def dmemRead (n : Nat) (a : Word) (s : State) : State :=
  if legalDmemAccess s.dmem.size n a then
    { s with draws := s.draws + drawsOfRead s a.toNat n }.respond
      (.data (BitVec.ofNat 32 (littleEndianValue ((List.range n).map fun k => readByte s a.toNat k))))
  else s.busError (.dmemRead n a)

/-- One transaction of the Host, one atomic step (00_scope.md R12). -/
def hostStep (t : Transaction) (s : State) : Host.Outcome State Fault Refusal :=
  match t with
  | .regWrite n off v => mmioWrite n off v s
  | .regRead n off => .next (mmioRead n off s)
  | .dmemWrite n a v => .next (dmemWrite n a v s)
  | .dmemRead n a => .next (dmemRead n a s)

/-- One event (00_scope.md R12, 70_reset_and_hazards.md R164). -/
def eventStep (e : Event) (s : State) : Host.Outcome State Fault Refusal :=
  match e with
  | .host t => hostStep t s
  | .engine => .next s.engineStep
  | .hwReset => .next s.hwReset

/-- The next event of the inbox; with none left the engine completes what is in flight, and an idle block keeps its
state (60_exceptions.md R163, 70_reset_and_hazards.md R179; log 4). -/
def nextStep (s : State) : Host.Outcome State Fault Refusal :=
  match s.inbox with
  | [] => .next s.engineStep
  | e :: rest => eventStep e { s with inbox := rest }

/-- A register write put before the events to come. -/
def State.withWrite (s : State) (off : Offset) (v : Word) : State :=
  { s with inbox := .host (.regWrite 4 off v) :: s.inbox }

end Sys2Proof.Machine
end

