-- ==== Sys2Proof/Machine/Step.lean ====
section
/-! DEFINITION. One step of the machine, and a state whose next step runs a given instruction. -/

namespace Sys2Proof.Machine

/-- One atomic step of the Host, the Engine or the reset input (00_scope.md R12). -/
def step (s : State) : Host.Outcome State Fault Refusal := nextStep s

/-- The state in which the next event is the register write that carries the instruction whose bits are w, numbered
as spec/opcode_table.json numbers them (logs 8 and 9). -/
def State.withFetchWord (s : State) (nbits w : Nat) : State :=
  s.withWrite (tableOffset nbits (BitVec.ofNat 32 w)) (BitVec.ofNat 32 w)

end Sys2Proof.Machine
end

