-- ==== Sys2Proof/Machine/HostSyntax.lean ====
section
/-! DEFINITION. The host's notation (30_encoding.md R82–R86): what each line and pseudo-instruction stands for, the
command syntax, and the disassembly of command words. -/

namespace Sys2Proof.Machine

/-- A register operand: a name, or an offset written as a number (30_encoding.md R85). -/
inductive RegOperand where
  | named (r : RegName)
  | number (off : Offset)
  deriving DecidableEq, Repr

/-- The offset a register operand stands for (30_encoding.md R85). -/
def operandOffset : RegOperand → Offset
  | .named r => regOffset r
  | .number off => off

/-- One line of host assembly (30_encoding.md R82). -/
inductive HostLine where
  | mw (r : RegOperand) (v : Word)
  | mr (r : RegOperand)
  | sb (a v : Word)
  | sh (a v : Word)
  | sw (a v : Word)
  | lb (a : Word)
  | lh (a : Word)
  | lw (a : Word)
  deriving DecidableEq, Repr

/-- The transaction of a line (30_encoding.md R82). -/
def lineTransaction : HostLine → Transaction
  | .mw r v => .regWrite 4 (operandOffset r) v
  | .mr r => .regRead 4 (operandOffset r)
  | .sb a v => .dmemWrite 1 a v
  | .sh a v => .dmemWrite 2 a v
  | .sw a v => .dmemWrite 4 a v
  | .lb a => .dmemRead 1 a
  | .lh a => .dmemRead 2 a
  | .lw a => .dmemRead 4 a

/-- A pseudo-instruction (30_encoding.md R84). `cmd` and `run` take a command; with `softReset` for one they are
`softreset`. -/
inductive Pseudo where
  | cmd (i : Instr)
  /-- `busyReads` of its reads return BUSY = 1, and one more returns 0. -/
  | pollIdle (busyReads : Nat)
  | run (i : Instr) (busyReads : Nat)
  | clrirq
  | setup (w h n s d r : Word)
  | fill (a : Word) (bytes : List Byte)
  | softreset
  deriving DecidableEq, Repr

/-- `sb a, b0 ; sb a+1, b1 ; …` (30_encoding.md R84). -/
def fillLines (a : Word) : List Byte → List HostLine
  | [] => []
  | b :: bs => .sb a (b.setWidth 32) :: fillLines (a + 1#32) bs

/-- `mw CMD, word` (30_encoding.md R84). -/
def commandLine (i : Instr) : HostLine := .mw (.number (encode i).1) (encode i).2

/-- The expansion of a pseudo-instruction (30_encoding.md R84). -/
def expand : Pseudo → List HostLine
  | .cmd i => [commandLine i]
  | .pollIdle k => List.replicate (k + 1) (.mr (.named .status))
  | .run i k => commandLine i :: List.replicate (k + 1) (.mr (.named .status))
  | .clrirq => [.mw (.named .irqStatus) 0x7#32]
  | .setup w h n s d r =>
    [.mw (.named .width) w, .mw (.named .height) h, .mw (.named .frameCount) n,
     .mw (.named .srcAddr) s, .mw (.named .dstAddr) d, .mw (.named .refAddr) r]
  | .fill a bs => fillLines a bs
  | .softreset => [.mw (.named .ctrl) 0x1#32]

/-- The register a name stands for (30_encoding.md R85). -/
def registerNamed (name : String) : Option RegName :=
  if name = "ID" then some .id
  else if name = "VERSION" then some .version
  else if name = "CTRL" then some .ctrl
  else if name = "CMD" then some .cmd
  else if name = "STATUS" then some .status
  else if name = "IRQ_STATUS" then some .irqStatus
  else if name = "IRQ_ENABLE" then some .irqEnable
  else if name = "ERR_CODE" then some .errCode
  else if name = "ERR_INFO" then some .errInfo
  else if name = "WIDTH" then some .width
  else if name = "HEIGHT" then some .height
  else if name = "FRAME_COUNT" then some .frameCount
  else if name = "SRC_ADDR" then some .srcAddr
  else if name = "DST_ADDR" then some .dstAddr
  else if name = "REF_ADDR" then some .refAddr
  else if name = "MEM_SIZE" then some .memSize
  else none

/-- A command as it is written (30_encoding.md R83); the soft-reset trigger has the pseudo-instruction's name (R84). -/
def commandText : Instr → String
  | .nop => "NOP"
  | .cscFwd => "CSC_FWD"
  | .cscInv => "CSC_INV"
  | .deltaFwd false => "DELTA_FWD"
  | .deltaFwd true => "DELTA_FWD.cont"
  | .deltaInv false => "DELTA_INV"
  | .deltaInv true => "DELTA_INV.cont"
  | .softReset => "softreset"

/-- The word of a written command; any other name, or `.cont` on any other command, is refused (30_encoding.md R83). -/
def assembleCommand (text : String) : Option Word :=
  if text = "NOP" then some (encode .nop).2
  else if text = "CSC_FWD" then some (encode .cscFwd).2
  else if text = "CSC_INV" then some (encode .cscInv).2
  else if text = "DELTA_FWD" then some (encode (.deltaFwd false)).2
  else if text = "DELTA_FWD.cont" then some (encode (.deltaFwd true)).2
  else if text = "DELTA_INV" then some (encode (.deltaInv false)).2
  else if text = "DELTA_INV.cont" then some (encode (.deltaInv true)).2
  else none

/-- A hexadecimal digit, in capitals as 95_test_vectors.md section 5 prints them. -/
def hexDigit (n : Nat) : Char := (['0', '1', '2', '3', '4', '5', '6', '7', '8', '9', 'A', 'B', 'C', 'D', 'E']).getD n 'F'

/-- `0xXXXXXXXX` (30_encoding.md R86). -/
def hexWord (w : Word) : String :=
  "0x" ++ String.ofList ([7, 6, 5, 4, 3, 2, 1, 0].map fun k => hexDigit (w.extractLsb' (4 * k) 4).toNat)

/-- Disassembly of a command word (30_encoding.md R86). -/
def disassemble (w : Word) : String :=
  match decodeCommand w with
  | .instr i => commandText i
  | .illegal .opcode => ".word " ++ hexWord w ++ " ; illegal: E_OPCODE"
  | .illegal .rsvd => ".word " ++ hexWord w ++ " ; illegal: E_RSVD"
  | .noInstr => ".word " ++ hexWord w
  | .truncated => ".word " ++ hexWord w

end Sys2Proof.Machine
end

