-- ==== Sys2Proof/WellFormed.lean ====
section
/-! DEFINITION. Which command words and which host transactions are well-formed, said apart from the decoder and the
machine. Every term of `Instr` is well-formed: `cont` is an argument only where it is legal. -/

namespace Sys2Proof

/-- A legal command word (30_encoding.md R72, R76, R77): the opcode is one of the five, the reserved bits are 0, and
CONT is 1 only with opcodes 0x03 and 0x04. -/
def CommandFields.wellFormed (f : CommandFields) : Bool :=
  decide (f.opcode.toNat ≤ 4) && f.rsvd == 0#23 && (!f.cont || f.opcode == 3#8 || f.opcode == 4#8)

/-- A transaction the block performs (30_encoding.md R81, 20_memory.md R48, R49, R51), with MEM_BYTES = `memBytes`;
any other gets the bus error of 60_exceptions.md R157. -/
def Machine.Transaction.wellFormed (memBytes : Nat) : Machine.Transaction → Bool
  | .regWrite n off _ => decide (n = 4 ∧ 4 ∣ off.toNat)
  | .regRead n off => decide (n = 4 ∧ 4 ∣ off.toNat)
  | .dmemWrite n a _ => decide ((n = 1 ∨ n = 2 ∨ n = 4) ∧ n ∣ a.toNat ∧ a.toNat + n ≤ memBytes)
  | .dmemRead n a => decide ((n = 1 ∨ n = 2 ∨ n = 4) ∧ n ∣ a.toNat ∧ a.toNat + n ≤ memBytes)

end Sys2Proof
end

