-- ==== Sys2Proof/Safety.lean ====
section
/-! DEFINITION. What a safe run is, the invariant of the machine, and the words the statements are written in. -/

namespace Sys2Proof.Machine

/-! ## Runs -/

/-- A run with a model fault recorded is faulted, never final (60_exceptions.md R158, 70_reset_and_hazards.md R182). -/
def State.Faulted (s : State) : Prop := s.fault ≠ none

/-- The end of a run: the host's last transaction is done, the engine is Idle, nothing is faulted
(70_reset_and_hazards.md R182). -/
def State.Final (s : State) : Prop := s.inbox = [] ∧ s.engine = .idle ∧ ¬ s.Faulted

/-! ## The invariant -/

/-- A command in flight passed every check at issue, has frames to process, and has one output byte for each byte of
its destination (40_command_lifecycle.md R98, R102). -/
def Engine.sound (memBytes : Nat) : Engine → Bool
  | .idle => true
  | .busy p =>
    p.latch.op != .nop && p.latch.n != 0#16 && validate memBytes p.latch == none
      && p.out.length == p.latch.regions.dst.len

/-- What every step keeps. -/
structure State.Inv (s : State) : Prop where
  /-- DMEM keeps its canonical form: rising addresses, all backed (20_memory.md R47). -/
  memory  : s.dmem.wf = true
  /-- MEM_BYTES is legal (00_scope.md R8). -/
  size    : 16 ≤ s.dmem.size ∧ s.dmem.size ≤ 2 ^ 31
  /-- The command in flight is one that was accepted. -/
  engine  : s.engine.sound s.dmem.size = true
  /-- ERR_CODE values 0x06–0xFF are never reported (60_exceptions.md R145). -/
  errCode : s.regs.errCode.toNat ≤ 5

/-! ## The words of the statements -/

/-- Every command of the opcode map with its operation, CONT bit and full word (30_encoding.md R73). -/
def commandTable : List (Instr × Op × Bool × Word) :=
  [(.nop, .nop, false, 0x00000000#32),
   (.cscFwd, .cscFwd, false, 0x00000001#32),
   (.cscInv, .cscInv, false, 0x00000002#32),
   (.deltaFwd false, .deltaFwd, false, 0x00000003#32),
   (.deltaFwd true, .deltaFwd, true, 0x00000103#32),
   (.deltaInv false, .deltaInv, false, 0x00000004#32),
   (.deltaInv true, .deltaInv, true, 0x00000104#32)]

/-- The commands that process frames. -/
def dataCommands : List (Instr × Op × Bool × Word) := commandTable.tail

/-- A legal dimension: even, from 2 to 65534 (10_state.md R30). -/
def GoodDim (x : BitVec 16) : Prop := x.toNat ≠ 0 ∧ x.toNat % 2 = 0

/-- The bytes a command reads at SRC_ADDR for one frame (40_command_lifecycle.md R93, 20_memory.md R56). -/
def srcFrame (op : Op) (W H : Nat) : Nat :=
  match op with
  | .nop => 0
  | .cscFwd => W * H * 3
  | .cscInv => W * H * 3 / 2
  | .deltaFwd => W * H * 3 / 2
  | .deltaInv => W * H * 3 / 2

/-- The bytes a command writes at DST_ADDR for one frame (40_command_lifecycle.md R93, 20_memory.md R56). -/
def dstFrame (op : Op) (W H : Nat) : Nat :=
  match op with
  | .nop => 0
  | .cscFwd => W * H * 3 / 2
  | .cscInv => W * H * 3
  | .deltaFwd => W * H * 3 / 2
  | .deltaInv => W * H * 3 / 2

/-- Two byte ranges share a byte. -/
def Meet (a m b n : Nat) : Prop := 0 < m ∧ 0 < n ∧ a < b + n ∧ b < a + m

/-- The length of the source region that the operand registers give a command. -/
def srcLen (op : Op) (r : Regs) : Nat := r.frameCount.toNat * srcFrame op r.width.toNat r.height.toNat

/-- The length of the destination region. -/
def dstLen (op : Op) (r : Regs) : Nat := r.frameCount.toNat * dstFrame op r.width.toNat r.height.toNat

/-- The length of the reference region: one PlanarFrame with CONT = 1 and N ≥ 1, else none. -/
def refLen (cont : Bool) (r : Regs) : Nat :=
  if cont ∧ r.frameCount ≠ 0#16 then r.width.toNat * r.height.toNat * 3 / 2 else 0

/-- Every nonempty region ends at or below MEM_BYTES (40_command_lifecycle.md R94). -/
def InRange (memBytes : Nat) (op : Op) (cont : Bool) (r : Regs) : Prop :=
  (0 < srcLen op r → r.srcAddr.toNat + srcLen op r ≤ memBytes) ∧
  (0 < dstLen op r → r.dstAddr.toNat + dstLen op r ≤ memBytes) ∧
  (0 < refLen cont r → r.refAddr.toNat + refLen cont r ≤ memBytes)

/-- The operations that may run in place (40_command_lifecycle.md R95). -/
def IsDelta (op : Op) : Prop := op = .deltaFwd ∨ op = .deltaInv

/-- SRC and DST overlap in a way that is forbidden: at all for a colour command, without being equal for a delta
command (40_command_lifecycle.md R95). -/
def SrcDstConflict (op : Op) (r : Regs) : Prop :=
  Meet r.srcAddr.toNat (srcLen op r) r.dstAddr.toNat (dstLen op r) ∧ (IsDelta op → r.srcAddr ≠ r.dstAddr)

/-- REF and DST overlap (40_command_lifecycle.md R95). -/
def RefDstConflict (op : Op) (cont : Bool) (r : Regs) : Prop :=
  Meet r.refAddr.toNat (refLen cont r) r.dstAddr.toNat (dstLen op r)

/-- The operands of a data command pass every check (40_command_lifecycle.md R92). -/
def GoodOperands (memBytes : Nat) (op : Op) (cont : Bool) (r : Regs) : Prop :=
  GoodDim r.width ∧ GoodDim r.height ∧ InRange memBytes op cont r ∧ ¬ SrcDstConflict op r ∧ ¬ RefDstConflict op cont r

/-- The F_op of a data command (40_command_lifecycle.md R100). -/
def outputOf (op : Op) (L : Latch) (M : Nat → Byte) : List Byte :=
  match op with
  | .nop => []
  | .cscFwd => fCscFwd L M
  | .cscInv => fCscInv L M
  | .deltaFwd => fDeltaFwd L M
  | .deltaInv => fDeltaInv L M

/-- The registers after an error completion of the word `w` (40_command_lifecycle.md R91, R96). -/
def erroredRegs (r : Regs) (w : Word) (code : BitVec 8) (info : Word) : Regs :=
  { r with cmd := w, errCode := code, errInfo := info, irqStatus := r.irqStatus ||| 0b010#3 }

end Sys2Proof.Machine
end

