-- ==== Sys2Proof/Certificates/Slice0/Obligations.lean ====
section
/-! DEFINITION. The statements for the provers, taken from the numbered rules of spec/. -/

open Sys2Proof Sys2Proof.Machine

/-! ## Encoding and decoding -/

/-- R73: the seven full words of the legal commands, and R80: the soft-reset trigger, decode to what they stand for. -/
def Obligations.FullWordsDecodeToTheirCommands : Prop :=
  decodeWrite 0x00C#12 0x00000000#32 = .instr .nop ∧
  decodeWrite 0x00C#12 0x00000001#32 = .instr .cscFwd ∧
  decodeWrite 0x00C#12 0x00000002#32 = .instr .cscInv ∧
  decodeWrite 0x00C#12 0x00000003#32 = .instr (.deltaFwd false) ∧
  decodeWrite 0x00C#12 0x00000103#32 = .instr (.deltaFwd true) ∧
  decodeWrite 0x00C#12 0x00000004#32 = .instr (.deltaInv false) ∧
  decodeWrite 0x00C#12 0x00000104#32 = .instr (.deltaInv true) ∧
  decodeWrite 0x008#12 0x00000001#32 = .instr .softReset

/-- Decode and encode agree, both ways: an encoded instruction decodes to itself, through its byte lanes too; a CMD
word that decodes is the encoding of what it decodes to (each command has one word, R73); and a write that decodes to
an instruction is to the register its encoding names. -/
def Obligations.DecodeAndEncodeAgree : Prop :=
  (∀ i : Instr, decodeWrite (encode i).1 (encode i).2 = .instr i) ∧
  (∀ i : Instr, decodeBytes (encode i).1 [byteLane (encode i).2 0, byteLane (encode i).2 1,
      byteLane (encode i).2 2, byteLane (encode i).2 3] = .instr i) ∧
  (∀ (w : Word) (i : Instr), decodeCommand w = .instr i → encode i = (0x00C#12, w)) ∧
  (∀ (off : Offset) (w : Word) (i : Instr), decodeWrite off w = .instr i → (encode i).1 = off)

/-- R79: every word has exactly one outcome. The opcode check decides first, then the reserved bits and CONT, and a word
that passes both is the command whose full word it is. -/
def Obligations.IllegalWordsAreNamedInPriorityOrder : Prop :=
  ∀ w : Word,
    (decodeCommand w = .illegal .opcode ↔ 0x05 ≤ w.toNat % 256) ∧
    (decodeCommand w = .illegal .rsvd ↔
      w.toNat % 256 < 0x05 ∧ (w.toNat / 512 ≠ 0 ∨ (w.toNat / 256 % 2 = 1 ∧ w.toNat % 256 ≤ 0x02))) ∧
    ((∃ c ∈ commandTable, c.2.2.2 = w ∧ decodeCommand w = .instr c.1) ↔
      w.toNat % 256 < 0x05 ∧ w.toNat / 512 = 0 ∧ ¬ (w.toNat / 256 % 2 = 1 ∧ w.toNat % 256 ≤ 0x02))

/-- R80: a CTRL write with bit 0 = 1 is SOFT_RESET whatever its other bits, and runs it; with bit 0 = 0 it carries no
instruction and does nothing but be taken and answered. -/
def Obligations.ControlBitZeroIsTheSoftResetTrigger : Prop :=
  ∀ (s : State) (w : Word) (rest : List Event), s.inbox = .host (.regWrite 4 0x008#12 w) :: rest →
    (w.toNat % 2 = 1 → decodeWrite 0x008#12 w = .instr .softReset ∧
      step s = exec .softReset { s with inbox := rest, response := some .written }) ∧
    (w.toNat % 2 = 0 → decodeWrite 0x008#12 w = .noInstr ∧
      step s = .next { s with inbox := rest, response := some .written })

/-- R86: disassembling a legal command word and assembling the text gives the word back, and the text of an illegal
word is refused. -/
def Obligations.DisassemblyOfLegalWordsIsInvertible : Prop :=
  ∀ w : Word,
    ((∃ i, decodeCommand w = .instr i) → assembleCommand (disassemble w) = some w) ∧
    ((∀ i, decodeCommand w ≠ .instr i) → assembleCommand (disassemble w) = none)

/-! ## A step runs the decoded instruction -/

/-- A step whose next event is a register write that decodes to an instruction is that instruction's meaning, on the
state with the event taken and the write answered; and the state that holds an instruction's word next is such a
state. -/
def Obligations.StepRunsTheDecodedInstruction : Prop :=
  (∀ (s : State) (off : Offset) (w : Word) (i : Instr) (rest : List Event),
    s.inbox = .host (.regWrite 4 off w) :: rest → decodeWrite off w = .instr i →
      step s = exec i { s with inbox := rest, response := some .written }) ∧
  (∀ (s : State) (w : Word) (i : Instr), decodeCommand w = .instr i →
    step (s.withFetchWord 32 w.toNat) = exec i { s with response := some .written })

/-! ## Commands that complete at issue -/

/-- R99, R97: NOP at an Idle engine stores its word in CMD, clears ERR_CODE and ERR_INFO, sets DONE, and changes
nothing else, whatever the operand registers hold. -/
def Obligations.NopCompletesAtIssue : Prop :=
  ∀ s : State, s.engine = .idle →
    exec .nop s = .next { s with regs := { s.regs with
      cmd := 0x00000000#32, errCode := 0x00#8, errInfo := 0#32, irqStatus := s.regs.irqStatus ||| 0b001#3 } }

/-- R97: a data command with N = 0 and legal dimensions completes at issue with success, whatever its addresses, and
changes nothing else: no DMEM byte, no engine activity. All six data commands. -/
def Obligations.EmptyDataCommandCompletesAtIssue : Prop :=
  ∀ c ∈ dataCommands, ∀ s : State, s.engine = .idle → GoodDim s.regs.width → GoodDim s.regs.height →
    s.regs.frameCount = 0#16 →
      exec c.1 s = .next { s with regs := { s.regs with
        cmd := c.2.2.2, errCode := 0x00#8, errInfo := 0#32, irqStatus := s.regs.irqStatus ||| 0b001#3 } }

/-- R76, R77: an illegal word written to CMD at an Idle engine is stored in CMD and completes at once, with E_OPCODE or
else E_RSVD and the word as ERR_INFO; ERR is set; nothing else changes (no DMEM byte, no engine activity) but the event
taken and its normal response. -/
def Obligations.IllegalWordCompletesWithItsError : Prop :=
  ∀ (s : State) (w : Word) (rest : List Event),
    s.inbox = .host (.regWrite 4 0x00C#12 w) :: rest → s.engine = .idle →
      (0x05 ≤ w.toNat % 256 →
        step s = .next { s with
          inbox := rest, response := some .written, regs := erroredRegs s.regs w (0x01#8) w }) ∧
      (w.toNat % 256 < 0x05 → w.toNat / 512 ≠ 0 ∨ (w.toNat / 256 % 2 = 1 ∧ w.toNat % 256 ≤ 0x02) →
        step s = .next { s with
          inbox := rest, response := some .written, regs := erroredRegs s.regs w (0x02#8) w })

/-- R92 (E_DIM): a data command with a zero or odd WIDTH or HEIGHT, whatever its other operands, completes at once
with ERR_CODE 3 and ERR_INFO bit 0 for W and bit 1 for H; only CMD, ERR_CODE, ERR_INFO and ERR change. -/
def Obligations.BadDimensionIsReportedFirst : Prop :=
  ∀ c ∈ dataCommands, ∀ s : State, s.engine = .idle → ¬ (GoodDim s.regs.width ∧ GoodDim s.regs.height) →
    ∃ info : Word,
      (info.toNat % 2 = 1 ↔ ¬ GoodDim s.regs.width) ∧ (info.toNat / 2 = 1 ↔ ¬ GoodDim s.regs.height) ∧ info.toNat ≤ 3 ∧
      exec c.1 s = .next { s with regs := erroredRegs s.regs c.2.2.2 (0x03#8) info }

/-- R94 (E_RANGE): with legal dimensions, a nonempty region that ends past MEM_BYTES gives ERR_CODE 4; the regions are
checked in the order SRC, DST, REF, on unbounded integers, before any overlap. -/
def Obligations.RangeErrorNamesTheFirstBadRegion : Prop :=
  ∀ c ∈ dataCommands, ∀ s : State, s.engine = .idle → GoodDim s.regs.width → GoodDim s.regs.height →
    ¬ InRange s.dmem.size c.2.1 c.2.2.1 s.regs →
      let info : Word :=
        if 0 < srcLen c.2.1 s.regs ∧ s.dmem.size < s.regs.srcAddr.toNat + srcLen c.2.1 s.regs then 0#32
        else if 0 < dstLen c.2.1 s.regs ∧ s.dmem.size < s.regs.dstAddr.toNat + dstLen c.2.1 s.regs then 1#32
        else 2#32
      exec c.1 s = .next { s with regs := erroredRegs s.regs c.2.2.2 (0x04#8) info }

/-- R95 (E_OVERLAP): with legal dimensions and every region in range, a forbidden overlap gives ERR_CODE 5, with
ERR_INFO 0 for SRC with DST and else 1 for REF with DST. -/
def Obligations.OverlapErrorNamesTheRegions : Prop :=
  ∀ c ∈ dataCommands, ∀ s : State, s.engine = .idle → GoodDim s.regs.width → GoodDim s.regs.height →
    InRange s.dmem.size c.2.1 c.2.2.1 s.regs →
    (SrcDstConflict c.2.1 s.regs →
      exec c.1 s = .next { s with regs := erroredRegs s.regs c.2.2.2 (0x05#8) 0#32 }) ∧
    (¬ SrcDstConflict c.2.1 s.regs → RefDstConflict c.2.1 c.2.2.1 s.regs →
      exec c.1 s = .next { s with regs := erroredRegs s.regs c.2.2.2 (0x05#8) 1#32 })

/-- R103: any CMD word written while the engine is Busy, legal or not, sets OVERRUN and changes nothing else: CMD, the
command in flight, ERR_CODE, ERR_INFO and DMEM are as they were. -/
def Obligations.CommandWriteWhileBusyIsAnOverrun : Prop :=
  ∀ (s : State) (w : Word) (p : Pending) (rest : List Event),
    s.inbox = .host (.regWrite 4 0x00C#12 w) :: rest → s.engine = .busy p →
      step s = .next { s with
        inbox := rest, response := some .written,
        regs := { s.regs with irqStatus := s.regs.irqStatus ||| 0b100#3 } }

/-! ## Accepted commands -/

/-- R98, R39: a data command whose operands pass every check, with N ≥ 1, is accepted: CMD holds its word, and the
engine is Busy with the latched operands and the command's output over DMEM now. ERR_CODE, ERR_INFO, IRQ_STATUS, DMEM
and the rest of the state are unchanged. CSC_FWD, CSC_INV, DELTA_FWD and DELTA_INV, both CONT values. -/
def Obligations.GoodDataCommandIsAccepted : Prop :=
  ∀ c ∈ dataCommands, ∀ s : State, s.engine = .idle → s.regs.frameCount ≠ 0#16 →
    GoodOperands s.dmem.size c.2.1 c.2.2.1 s.regs →
      let L : Latch := { op := c.2.1, cont := c.2.2.1, w := s.regs.width, h := s.regs.height,
                         n := s.regs.frameCount, src := s.regs.srcAddr, dst := s.regs.dstAddr, ref := s.regs.refAddr }
      exec c.1 s = .next { s with
        regs := { s.regs with cmd := c.2.2.2 },
        engine := .busy { latch := L, out := outputOf c.2.1 L s.dmem.read, hazard := false } }

/-- R101: the engine's completion of a command in flight that no host write has disturbed, at an `engine` event or
with no event left: its output stands at L.DST, every other DMEM byte is as it was, ERR_CODE and ERR_INFO are 0, DONE
is set, the engine is Idle, and nothing else changes but the event taken. -/
def Obligations.CompletionStoresTheOutput : Prop :=
  ∀ (s : State) (p : Pending), s.engine = .busy p → p.hazard = false →
    p.latch.dst.toNat + p.out.length ≤ s.dmem.size →
    s.inbox = [] ∨ s.inbox.head? = some .engine →
      ∃ m : Memory,
        step s = .next { s with
          inbox := s.inbox.tail, engine := .idle, dmem := m,
          regs := { s.regs with
            errCode := 0x00#8, errInfo := 0#32, irqStatus := s.regs.irqStatus ||| 0b001#3 } } ∧
        m.size = s.dmem.size ∧
        (∀ k (h : k < p.out.length), m.read (p.latch.dst.toNat + k) = p.out[k]) ∧
        (∀ a, a < p.latch.dst.toNat ∨ p.latch.dst.toNat + p.out.length ≤ a → m.read a = s.dmem.read a)

/-- A data command end to end: from an Idle engine with no event pending and operands that pass every check, the step
that takes the command word and the completion step (the model's schedule and word placement: logs 4, 8, 9) leave the command's output, a function of DMEM at issue (R100), at
DST_ADDR, every other DMEM byte as it was, DONE set, ERR_CODE and ERR_INFO 0, and the engine Idle. -/
def Obligations.DataCommandReachesMemory : Prop :=
  ∀ c ∈ dataCommands, ∀ s : State, s.engine = .idle → s.inbox = [] → s.regs.frameCount ≠ 0#16 →
    GoodOperands s.dmem.size c.2.1 c.2.2.1 s.regs →
      let out := outputOf c.2.1 (latch c.2.1 c.2.2.1 s.regs) s.dmem.read
      ∃ t : State,
        Host.Core.run core 2 (s.withFetchWord 32 c.2.2.2.toNat) = .next t ∧
        out.length = dstLen c.2.1 s.regs ∧
        (∀ k (h : k < out.length), t.dmem.read (s.regs.dstAddr.toNat + k) = out[k]) ∧
        (∀ a, a < s.regs.dstAddr.toNat ∨ s.regs.dstAddr.toNat + dstLen c.2.1 s.regs ≤ a →
          t.dmem.read a = s.dmem.read a) ∧
        t.regs = { s.regs with
          cmd := c.2.2.2, errCode := 0x00#8, errInfo := 0#32, irqStatus := s.regs.irqStatus ||| 0b001#3 } ∧
        t.engine = .idle ∧ t.fault = s.fault ∧ t.inbox = [] ∧ t.draws = s.draws ∧ t.dmem.size = s.dmem.size

/-! ## The forward colour transform -/

/-- R111, R116: in the output of CSC_FWD, the luma byte of pixel (r, c) of frame f is floor((2990·c0 + 5870·c1 +
1140·c2) / 10000) of the pixel's three source bytes, at offset f·LPLANAR + r·W + c. -/
def Obligations.CscFwdLumaBytes : Prop :=
  ∀ (L : Latch) (M : Nat → Byte) (f r c : Nat),
    GoodDim L.w → GoodDim L.h → f < L.n.toNat → r < L.h.toNat → c < L.w.toNat →
      let W := L.w.toNat
      let H := L.h.toNat
      let a := L.src.toNat + f * (W * H * 3) + 3 * (r * W + c)
      ∃ b : Byte, (fCscFwd L M)[f * (W * H * 3 / 2) + r * W + c]? = some b ∧
        b.toNat = (2990 * (M a).toNat + 5870 * (M (a + 1)).toNat + 1140 * (M (a + 2)).toNat) / 10000

/-- R112, R115, R116: the U byte of block (br, bc) of frame f, at offset f·LPLANAR + LY + br·(W/2) + bc, is
floor(sum / 40000) of the four pixels' exact u values scaled by 10000; the V byte, LC later, of their v values. -/
def Obligations.CscFwdChromaBytes : Prop :=
  ∀ (L : Latch) (M : Nat → Byte) (f br bc : Nat),
    GoodDim L.w → GoodDim L.h → f < L.n.toNat → br < L.h.toNat / 2 → bc < L.w.toNat / 2 →
      let W := L.w.toNat
      let H := L.h.toNat
      let at' : Nat → Nat → Nat := fun dr dc => L.src.toNat + f * (W * H * 3) + 3 * ((2 * br + dr) * W + (2 * bc + dc))
      let u : Nat → Nat → Int := fun dr dc => -1690 * (M (at' dr dc)).toNat - 3310 * (M (at' dr dc + 1)).toNat
        + 4490 * (M (at' dr dc + 2)).toNat + 1280000
      let v : Nat → Nat → Int := fun dr dc => 4990 * (M (at' dr dc)).toNat - 4180 * (M (at' dr dc + 1)).toNat
        - 813 * (M (at' dr dc + 2)).toNat + 1280000
      ∃ bu bv : Byte,
        (fCscFwd L M)[f * (W * H * 3 / 2) + W * H + br * (W / 2) + bc]? = some bu ∧
        (fCscFwd L M)[f * (W * H * 3 / 2) + W * H + W * H / 4 + br * (W / 2) + bc]? = some bv ∧
        (bu.toNat : Int) = (u 0 0 + u 0 1 + u 1 0 + u 1 1) / 40000 ∧
        (bv.toNat : Int) = (v 0 0 + v 0 1 + v 1 0 + v 1 1) / 40000

/-- R114: the ranges of the per-pixel values over every pixel, each bound reached. -/
def Obligations.ForwardValueRanges : Prop :=
  (∀ p : Pixel, 0 ≤ y10k p ∧ y10k p ≤ 2550000 ∧ 5000 ≤ u10k p ∧ u10k p ≤ 2424950 ∧
    6785 ≤ v10k p ∧ v10k p ≤ 2552450 ∧ ((yByte p).toNat : Int) = y10k p / 10000) ∧
  y10k ⟨0, 0, 0⟩ = 0 ∧ y10k ⟨255, 255, 255⟩ = 2550000 ∧ yByte ⟨0, 0, 0⟩ = 0 ∧ yByte ⟨255, 255, 255⟩ = 255 ∧
  u10k ⟨255, 255, 0⟩ = 5000 ∧ u10k ⟨0, 0, 255⟩ = 2424950 ∧
  v10k ⟨0, 255, 255⟩ = 6785 ∧ v10k ⟨255, 0, 0⟩ = 2552450

/-- R115: a block's chroma bytes are the floor of the mean of the exact values, U in 0..242 and V in 0..255, with no
clamp and no wrap. -/
def Obligations.BlockAverageThenTruncate : Prop :=
  ∀ p0 p1 p2 p3 : Pixel,
    ((uBlock p0 p1 p2 p3).toNat : Int) = (u10k p0 + u10k p1 + u10k p2 + u10k p3) / 40000 ∧
    (uBlock p0 p1 p2 p3).toNat ≤ 242 ∧
    ((vBlock p0 p1 p2 p3).toNat : Int) = (v10k p0 + v10k p1 + v10k p2 + v10k p3) / 40000

/-- R117: a luma byte depends only on its own pixel's three bytes, and a chroma byte only on its own block's twelve
bytes: two memories that agree there give the same bytes. -/
def Obligations.CscFwdIsLaneWise : Prop :=
  ∀ (L : Latch) (M M' : Nat → Byte) (f r c : Nat),
    GoodDim L.w → GoodDim L.h → f < L.n.toNat → r < L.h.toNat → c < L.w.toNat →
      let W := L.w.toNat
      let H := L.h.toNat
      let px : Nat → Nat → Nat := fun r c => L.src.toNat + f * (W * H * 3) + 3 * (r * W + c)
      ((∀ k < 3, M (px r c + k) = M' (px r c + k)) →
        (fCscFwd L M)[f * (W * H * 3 / 2) + r * W + c]? = (fCscFwd L M')[f * (W * H * 3 / 2) + r * W + c]?) ∧
      ((∀ dr < 2, ∀ dc < 2, ∀ k < 3,
          M (px (r / 2 * 2 + dr) (c / 2 * 2 + dc) + k) = M' (px (r / 2 * 2 + dr) (c / 2 * 2 + dc) + k)) →
        let j := f * (W * H * 3 / 2) + W * H + r / 2 * (W / 2) + c / 2
        (fCscFwd L M)[j]? = (fCscFwd L M')[j]? ∧ (fCscFwd L M)[j + W * H / 4]? = (fCscFwd L M')[j + W * H / 4]?)

/-! ## The inverse colour transform -/

/-- R119, R122, R123, R128: the three channels of pixel (r, c) of frame f in the output of CSC_INV, at offset
f·LRAW + 3·(r·W + c), are the clamped and truncated exact values of the pixel's luma byte and its block's chroma
bytes. -/
def Obligations.CscInvPixelBytes : Prop :=
  ∀ (L : Latch) (M : Nat → Byte) (f r c : Nat),
    GoodDim L.w → GoodDim L.h → f < L.n.toNat → r < L.h.toNat → c < L.w.toNat →
      let W := L.w.toNat
      let H := L.h.toNat
      let s := L.src.toNat + f * (W * H * 3 / 2)
      let y : Int := (M (s + r * W + c)).toNat
      let u : Int := (M (s + W * H + r / 2 * (W / 2) + c / 2)).toNat
      let v : Int := (M (s + W * H + W * H / 4 + r / 2 * (W / 2) + c / 2)).toNat
      let clamped : Int → Int := fun x => if x < 0 then 0 else if x ≥ 255000 then 255 else x / 1000
      let j := f * (W * H * 3) + 3 * (r * W + c)
      ∃ br bg bb : Byte,
        (fCscInv L M)[j]? = some br ∧ (fCscInv L M)[j + 1]? = some bg ∧ (fCscInv L M)[j + 2]? = some bb ∧
        (br.toNat : Int) = clamped (1000 * y + 1402 * (v - 128)) ∧
        (bg.toNat : Int) = clamped (1000 * y - 344 * (u - 128) - 714 * (v - 128)) ∧
        (bb.toNat : Int) = clamped (1000 * y + 1772 * (u - 128))

/-- R124: clamp-then-truncate is truncate-then-clamp, with floor toward −∞ and with truncation toward zero. -/
def Obligations.ClampAndTruncateCommute : Prop :=
  ∀ x : Int, ((chan x).toNat : Int) = max 0 (min 255 (x / 1000)) ∧
    ((chan x).toNat : Int) = max 0 (min 255 (Int.tdiv x 1000))

/-- R125: the ranges of the scaled values before the clamp over every byte triple, each bound reached. -/
def Obligations.InverseValueRanges : Prop :=
  (∀ p : Yuv, -179456 ≤ r1k p ∧ r1k p ≤ 433054 ∧ -134366 ≤ g1k p ∧ g1k p ≤ 390424 ∧
    -226816 ≤ b1k p ∧ b1k p ≤ 480044) ∧
  (∀ x : Byte, r1k ⟨0, x, 0⟩ = -179456 ∧ r1k ⟨255, x, 255⟩ = 433054 ∧
    b1k ⟨0, 0, x⟩ = -226816 ∧ b1k ⟨255, 255, x⟩ = 480044) ∧
  g1k ⟨0, 255, 255⟩ = -134366 ∧ g1k ⟨255, 0, 0⟩ = 390424

/-- R128 (corner case): a pixel with both chroma bytes 128 returns its luma in all three channels. -/
def Obligations.NeutralChromaReturnsTheLuma : Prop :=
  ∀ (y : Byte) (k : Nat), rgbChannel k ⟨y, 128, 128⟩ = y

/-- R129: an output pixel of CSC_INV depends only on its own luma byte and its block's two chroma bytes. -/
def Obligations.CscInvIsLaneWise : Prop :=
  ∀ (L : Latch) (M M' : Nat → Byte) (f r c k : Nat),
    GoodDim L.w → GoodDim L.h → f < L.n.toNat → r < L.h.toNat → c < L.w.toNat → k < 3 →
      let W := L.w.toNat
      let H := L.h.toNat
      let s := L.src.toNat + f * (W * H * 3 / 2)
      M (s + r * W + c) = M' (s + r * W + c) →
      M (s + W * H + r / 2 * (W / 2) + c / 2) = M' (s + W * H + r / 2 * (W / 2) + c / 2) →
      M (s + W * H + W * H / 4 + r / 2 * (W / 2) + c / 2) = M' (s + W * H + W * H / 4 + r / 2 * (W / 2) + c / 2) →
        (fCscInv L M)[f * (W * H * 3) + 3 * (r * W + c) + k]? = (fCscInv L M')[f * (W * H * 3) + 3 * (r * W + c) + k]?

/-! ## The temporal delta -/

/-- R130, R134, R135, R137: byte j of frame i in the output of DELTA_FWD: frame 0 passes through with CONT = 0 and is
diffed against REF with CONT = 1; a later frame is diffed, modulo 256, against the original frame before it. -/
def Obligations.DeltaFwdBytes : Prop :=
  ∀ (L : Latch) (M : Nat → Byte) (i j : Nat),
    let LP := L.w.toNat * L.h.toNat * 3 / 2
    i < L.n.toNat → j < LP →
      ∃ b : Byte, (fDeltaFwd L M)[i * LP + j]? = some b ∧
        (i = 0 → L.cont = false → b = M (L.src.toNat + j)) ∧
        (i = 0 → L.cont = true →
          (b.toNat : Int) = ((M (L.src.toNat + j)).toNat - (M (L.ref.toNat + j)).toNat : Int) % 256) ∧
        (1 ≤ i → (b.toNat : Int) =
          ((M (L.src.toNat + i * LP + j)).toNat - (M (L.src.toNat + (i - 1) * LP + j)).toNat : Int) % 256)

/-- R136, R138: output byte j of frame i of DELTA_INV is (base + e[0][j] + … + e[i][j]) mod 256, with base 0 for
CONT = 0 and the reference byte for CONT = 1. -/
def Obligations.DeltaInvBytesArePrefixSums : Prop :=
  ∀ (L : Latch) (M : Nat → Byte) (i j : Nat),
    let LP := L.w.toNat * L.h.toNat * 3 / 2
    i < L.n.toNat → j < LP →
      ∃ b : Byte, (fDeltaInv L M)[i * LP + j]? = some b ∧
        b.toNat = ((if L.cont then (M (L.ref.toNat + j)).toNat else 0)
          + ((List.range (i + 1)).map fun t => (M (L.src.toNat + t * LP + j)).toNat).sum) % 256

/-- R133: the two per-byte units undo each other, and equal bytes give 0. -/
def Obligations.DeltaUnitsAreInverse : Prop :=
  (∀ x p : Byte, recon (pred x p) p = x) ∧ (∀ e q : Byte, pred (recon e q) q = e) ∧ (∀ x : Byte, pred x x = 0) ∧
  (∀ x p : Byte, ((pred x p).toNat : Int) = ((x.toNat : Int) - p.toNat) % 256) ∧
  (∀ e q : Byte, (recon e q).toNat = (q.toNat + e.toNat) % 256)

/-- R140: DELTA_INV applied to the output of DELTA_FWD on a sequence, with the same dimensions, frame count and CONT
and the same reference frame, returns the sequence byte for byte. -/
def Obligations.DeltaInverseLaw : Prop :=
  ∀ (L L' : Latch) (M M' : Nat → Byte),
    L'.w = L.w → L'.h = L.h → L'.n = L.n → L'.cont = L.cont →
    (∀ k (h : k < (fDeltaFwd L M).length), M' (L'.src.toNat + k) = (fDeltaFwd L M)[k]) →
    (L.cont = true → ∀ j < L.w.toNat * L.h.toNat * 3 / 2, M' (L'.ref.toNat + j) = M (L.ref.toNat + j)) →
      fDeltaInv L' M' =
        (List.range (L.n.toNat * (L.w.toNat * L.h.toNat * 3 / 2))).map fun k => M (L.src.toNat + k)

/-- R139, R175 for DELTA_FWD: one command over a + b frames gives the same bytes as a command over the first a followed
by a CONT = 1 command over the next b, issued over whatever memory M' there is by then, wherever it finds its own b
frames and, at REF, the original frame before them or a copy of it. The destinations are free. -/
def Obligations.SplitForwardDeltaEqualsWhole : Prop :=
  ∀ (L L1 L2 : Latch) (M M' : Nat → Byte),
    let LP := L.w.toNat * L.h.toNat * 3 / 2
    1 ≤ L1.n.toNat → L.n.toNat = L1.n.toNat + L2.n.toNat →
    L1 = { L with n := L1.n, dst := L1.dst } → L2.w = L.w → L2.h = L.h → L2.cont = true →
    (∀ k < L2.n.toNat * LP, M' (L2.src.toNat + k) = M (L.src.toNat + L1.n.toNat * LP + k)) →
    (∀ j < LP, M' (L2.ref.toNat + j) = M (L.src.toNat + (L1.n.toNat - 1) * LP + j)) →
      fDeltaFwd L M = fDeltaFwd L1 M ++ fDeltaFwd L2 M'

/-- R139 for DELTA_INV: the same, where the second command finds its own delta frames as they were and, at REF, the
last frame the first command reconstructed. -/
def Obligations.SplitInverseDeltaEqualsWhole : Prop :=
  ∀ (L L1 L2 : Latch) (M M' : Nat → Byte),
    let LP := L.w.toNat * L.h.toNat * 3 / 2
    1 ≤ L1.n.toNat → L.n.toNat = L1.n.toNat + L2.n.toNat →
    L1 = { L with n := L1.n, dst := L1.dst } → L2.w = L.w → L2.h = L.h → L2.cont = true →
    (∀ k < L2.n.toNat * LP, M' (L2.src.toNat + k) = M (L.src.toNat + L1.n.toNat * LP + k)) →
    (∀ j < LP, (fDeltaInv L1 M)[(L1.n.toNat - 1) * LP + j]? = some (M' (L2.ref.toNat + j))) →
      fDeltaInv L M = fDeltaInv L1 M ++ fDeltaInv L2 M'

/-- R141: output byte (i, j) of both delta commands depends only on the bytes at offset j of the frames. -/
def Obligations.DeltaIsLaneWise : Prop :=
  ∀ (L : Latch) (M M' : Nat → Byte) (i j : Nat),
    let LP := L.w.toNat * L.h.toNat * 3 / 2
    i < L.n.toNat → j < LP →
    (∀ t < L.n.toNat, M (L.src.toNat + t * LP + j) = M' (L.src.toNat + t * LP + j)) →
    M (L.ref.toNat + j) = M' (L.ref.toNat + j) →
      (fDeltaFwd L M)[i * LP + j]? = (fDeltaFwd L M')[i * LP + j]? ∧
      (fDeltaInv L M)[i * LP + j]? = (fDeltaInv L M')[i * LP + j]?

/-! ## Resets -/

/-- R165 at an Idle engine: a soft reset puts every register at its reset value and changes nothing else; DMEM is
unchanged. -/
def Obligations.SoftResetWhileIdleResetsRegisters : Prop :=
  ∀ s : State, s.engine = .idle → exec .softReset s = .next { s with regs := Regs.reset }

/-- R165 at a Busy engine: the command is aborted with no completion; every register is at its reset value; every DMEM
byte outside the destination is as it was, and inside it a backed byte is the next draw; the fault record, the events
to come and the answer are untouched. -/
def Obligations.SoftResetAbortsTheCommand : Prop :=
  ∀ (s : State) (p : Pending), s.engine = .busy p →
    ∃ m : Memory,
      exec .softReset s = .next { s with
        regs := Regs.reset, engine := .idle, dmem := m, draws := s.draws + p.latch.regions.dst.len } ∧
      m.size = s.dmem.size ∧
      (∀ a, p.latch.regions.dst.contains a = false → m.read a = s.dmem.read a) ∧
      (∀ k < p.latch.regions.dst.len, p.latch.regions.dst.base + k < s.dmem.size →
        m.read (p.latch.regions.dst.base + k) = Config.draw (s.draws + k))

/-- R164, R166: a hardware reset puts every register at its reset value, the engine at Idle with the command in flight
abandoned, deasserts irq, keeps the fault record and MEM_BYTES, and leaves every DMEM byte the free value of that
reset (the model's form of the draw: log 2). -/
def Obligations.HardwareResetLeavesTheResetState : Prop :=
  ∀ (s : State) (rest : List Event), s.inbox = .hwReset :: rest →
    ∃ t : State, step s = .next t ∧ t.regs = Regs.reset ∧ t.engine = .idle ∧ t.irq = false ∧ t.fault = s.fault ∧
      t.inbox = rest ∧ t.dmem.size = s.dmem.size ∧ t.dmem.wf = true ∧
      (∀ a, t.dmem.written a = false ∧ t.dmem.read a = Config.resetByte (s.dmem.era + 1) a)

/-- R17, R166: what every aligned offset of the register window reads as in State.reset: the constants (MEM_SIZE: the
model's parameter, log 1), zero everywhere else; irq is deasserted and no command is pending. No reset changes the fault
record (R166): that it starts as none is the model's choice (log 18). -/
def Obligations.ResetStateReadsTheTabulatedValues : Prop :=
  readOffset State.reset 0x000#12 = 0x43533432#32 ∧ readOffset State.reset 0x004#12 = 0x00000100#32 ∧
  readOffset State.reset 0x03C#12 = BitVec.ofNat 32 Config.memBytes ∧
  (∀ off : Offset, off.toNat % 4 = 0 → off ≠ 0x000#12 → off ≠ 0x004#12 → off ≠ 0x03C#12 → readOffset State.reset off = 0#32) ∧
  State.reset.irq = false ∧ State.reset.engine = .idle ∧ State.reset.fault = none

/-- R168: after reset WIDTH and HEIGHT are 0, so every data command issued at an Idle engine before the host writes
them completes with E_DIM and ERR_INFO 3, whatever the other registers hold by then; and NOP succeeds at once. -/
def Obligations.FirstCommandAfterReset : Prop :=
  State.reset.engine = .idle ∧ State.reset.regs.width = 0#16 ∧ State.reset.regs.height = 0#16 ∧
  (∀ c ∈ dataCommands, ∀ s : State, s.engine = .idle → s.regs.width = 0#16 → s.regs.height = 0#16 →
    exec c.1 s = .next { s with regs := erroredRegs s.regs c.2.2.2 (0x03#8) 3#32 }) ∧
  exec .nop State.reset = .next { State.reset with regs := { Regs.reset with irqStatus := 0b001#3 } }

/-! ## Host transactions -/

/-- R88: a 32-bit read of an aligned offset answers the register's value and changes no state of the block: the
sixteen named offsets by the table, every other aligned offset with 0. -/
def Obligations.RegisterReadAnswersTheTable : Prop :=
  ∀ (s : State) (off : Offset) (rest : List Event),
    s.inbox = .host (.regRead 4 off) :: rest → off.toNat % 4 = 0 →
      step s = .next { s with inbox := rest, response := some (.data (
        if off.toNat = 0x000 then 0x43533432#32
        else if off.toNat = 0x004 then 0x00000100#32
        else if off.toNat = 0x00C then s.regs.cmd
        else if off.toNat = 0x010 then (match s.engine with | .idle => 0#32 | .busy _ => 1#32)
        else if off.toNat = 0x014 then BitVec.ofNat 32 s.regs.irqStatus.toNat
        else if off.toNat = 0x018 then BitVec.ofNat 32 s.regs.irqEnable.toNat
        else if off.toNat = 0x01C then BitVec.ofNat 32 s.regs.errCode.toNat
        else if off.toNat = 0x020 then s.regs.errInfo
        else if off.toNat = 0x024 then BitVec.ofNat 32 s.regs.width.toNat
        else if off.toNat = 0x028 then BitVec.ofNat 32 s.regs.height.toNat
        else if off.toNat = 0x02C then BitVec.ofNat 32 s.regs.frameCount.toNat
        else if off.toNat = 0x030 then s.regs.srcAddr
        else if off.toNat = 0x034 then s.regs.dstAddr
        else if off.toNat = 0x038 then s.regs.refAddr
        else if off.toNat = 0x03C then BitVec.ofNat 32 s.dmem.size
        else 0#32)) }

/-- R105–R108: a 32-bit write of an aligned offset other than CMD and CTRL stores the field's bits there and nothing
else, Idle or Busy; IRQ_STATUS is write-1-to-clear; read-only registers and reserved offsets ignore the write. -/
def Obligations.RegisterWriteStoresItsField : Prop :=
  ∀ (s : State) (off : Offset) (v : Word) (rest : List Event),
    s.inbox = .host (.regWrite 4 off v) :: rest → off.toNat % 4 = 0 → off.toNat ≠ 0x008 → off.toNat ≠ 0x00C →
      step s = .next { s with inbox := rest, response := some .written, regs :=
        if off.toNat = 0x014 then { s.regs with irqStatus := s.regs.irqStatus &&& ~~~ BitVec.ofNat 3 v.toNat }
        else if off.toNat = 0x018 then { s.regs with irqEnable := BitVec.ofNat 3 v.toNat }
        else if off.toNat = 0x024 then { s.regs with width := BitVec.ofNat 16 v.toNat }
        else if off.toNat = 0x028 then { s.regs with height := BitVec.ofNat 16 v.toNat }
        else if off.toNat = 0x02C then { s.regs with frameCount := BitVec.ofNat 16 v.toNat }
        else if off.toNat = 0x030 then { s.regs with srcAddr := v }
        else if off.toNat = 0x034 then { s.regs with dstAddr := v }
        else if off.toNat = 0x038 then { s.regs with refAddr := v }
        else s.regs }

/-- R41, R152: irq is 1 exactly when some IRQ_STATUS bit and the same-numbered IRQ_ENABLE bit are both 1. -/
def Obligations.IrqIsTheEnabledOr : Prop :=
  ∀ s : State, s.irq = true ↔ ∃ k < 3, s.regs.irqStatus.getLsbD k = true ∧ s.regs.irqEnable.getLsbD k = true

/-- R157: a transaction that is not well-formed (width, alignment, or DMEM address past MEM_BYTES) is not performed:
the bus answers with an error, no register, no DMEM byte and no engine state changes, and the model records a
BusFault unless a fault stands already (log 5). -/
def Obligations.IllegalTransactionIsABusError : Prop :=
  ∀ (s : State) (t : Transaction) (rest : List Event),
    s.inbox = .host t :: rest → t.wellFormed s.dmem.size = false →
      step s = .next { s with
        inbox := rest, response := some .busError, fault := s.fault.or (some (.busFault t)) }

/-- R89, R50: a legal DMEM write of width n that meets no region of a command in flight stores byte k of the value at
a + k, leaves every other byte and the rest of the state as they were, and is answered normally. -/
def Obligations.DmemWriteStoresLittleEndian : Prop :=
  ∀ (s : State) (n : Nat) (a v : Word) (rest : List Event),
    s.inbox = .host (.dmemWrite n a v) :: rest → (Transaction.dmemWrite n a v).wellFormed s.dmem.size = true →
    (∀ p, s.engine = .busy p → p.latch.meets a.toNat n = false) →
      ∃ m : Memory,
        step s = .next { s with inbox := rest, response := some .written, dmem := m } ∧ m.size = s.dmem.size ∧
        (∀ k < n, (m.read (a.toNat + k)).toNat = v.toNat / 256 ^ k % 256) ∧
        (∀ x, x < a.toNat ∨ a.toNat + n ≤ x → m.read x = s.dmem.read x)

/-- R158, R89: a legal DMEM write that meets a region of the command in flight is performed and recorded: a
HazardFault naming the transaction, unless a fault stands already (log 5), and the command's mark (log 6); the latch
and the registers are as they were. -/
def Obligations.HazardousWriteIsPerformedAndRecorded : Prop :=
  ∀ (s : State) (n : Nat) (a v : Word) (rest : List Event) (p : Pending),
    s.inbox = .host (.dmemWrite n a v) :: rest → (Transaction.dmemWrite n a v).wellFormed s.dmem.size = true →
    s.engine = .busy p → p.latch.meets a.toNat n = true →
      ∃ m : Memory,
        step s = .next { s with
          inbox := rest, response := some .written, dmem := m, engine := .busy { p with hazard := true },
          fault := s.fault.or (some (.hazardFault (.dmemWrite n a v))) } ∧
        m.size = s.dmem.size ∧
        (∀ k < n, (m.read (a.toNat + k)).toNat = v.toNat / 256 ^ k % 256) ∧
        (∀ x, x < a.toNat ∨ a.toNat + n ≤ x → m.read x = s.dmem.read x)

/-- R89's "meets a region", R93: with the operands of a command in flight, a byte range meets its regions exactly when
it shares a byte with the source, the destination or the reference region. -/
def Obligations.MeetingARegionIsSharingAByte : Prop :=
  ∀ (r : Regs) (op : Op) (cont : Bool), op ≠ .nop → (cont = true → IsDelta op) → ∀ a n : Nat,
    (latch op cont r).meets a n = true ↔
      Meet a n r.srcAddr.toNat (srcLen op r) ∨ Meet a n r.dstAddr.toNat (dstLen op r) ∨
      Meet a n r.refAddr.toNat (refLen cont r)

/-- R90, R50: a legal DMEM read answers the little-endian value of its bytes, those outside the destination of the
command in flight as DMEM holds them and those inside it unspecified, and changes nothing of the block; with the
engine Idle, or outside the destination, no draw is taken. -/
def Obligations.DmemReadAnswersLittleEndian : Prop :=
  ∀ (s : State) (n : Nat) (a : Word) (rest : List Event),
    s.inbox = .host (.dmemRead n a) :: rest → (Transaction.dmemRead n a).wellFormed s.dmem.size = true →
      ∃ (v : Word) (d : Nat),
        step s = .next { s with inbox := rest, response := some (.data v), draws := d } ∧ v.toNat < 256 ^ n ∧
        (∀ k < n, (∀ p, s.engine = .busy p → p.latch.regions.dst.contains (a.toNat + k) = false) →
          v.toNat / 256 ^ k % 256 = (s.dmem.read (a.toNat + k)).toNat) ∧
        ((∀ p, s.engine = .busy p → ∀ k < n, p.latch.regions.dst.contains (a.toNat + k) = false) → d = s.draws)

/-- R62, R50: at an Idle engine, a legal DMEM read of the width and address just written answers the value written,
cut to that width. -/
def Obligations.DmemReadAfterWriteReturnsTheValue : Prop :=
  ∀ (s : State) (n : Nat) (a v : Word),
    s.engine = .idle → (Transaction.dmemWrite n a v).wellFormed s.dmem.size = true →
    s.inbox = [.host (.dmemWrite n a v), .host (.dmemRead n a)] →
      ∃ t : State, Host.Core.run core 2 s = .next t ∧
        t.response = some (.data (BitVec.ofNat 32 (v.toNat % 256 ^ n))) ∧ t.fault = s.fault ∧ t.regs = s.regs

/-! ## The whole machine -/

/-- What every step keeps, from any state that has it: DMEM in canonical form, MEM_BYTES legal, the command in flight
one that passed every check with one output byte for each destination byte, ERR_CODE at most 5. -/
def Obligations.EveryStepKeepsTheInvariant : Prop :=
  ∀ s t : State, s.Inv → step s = .next t → t.Inv

/-- The state after a hardware reset has what every step keeps. -/
def Obligations.ResetSatisfiesTheInvariant : Prop := State.reset.Inv

/-- 93_implementation_defined.md: no state of the block is ever stuck. From every state, reachable or not, a step
answers a next state, and so does every instruction. -/
def Obligations.NoStateIsStuck : Prop :=
  ∀ s : State, (∃ t, step s = .next t) ∧ ∀ i : Instr, ∃ t, exec i s = .next t

/-- R44, R166: the fault record, once set, is never cleared by a step, resets included. That a further fault leaves the
first one standing is the model's choice (log 5). -/
def Obligations.FaultRecordIsNeverCleared : Prop :=
  ∀ (s t : State) (f : Fault), step s = .next t → s.fault = some f → t.fault = some f

/-- R157, R158: a clean state becomes faulted only by an illegal host transaction or by a legal DMEM write that meets
a region of the command in flight; and each of those does make it faulted. -/
def Obligations.OnlyForbiddenActionsFault : Prop :=
  ∀ s t : State, s.fault = none → step s = .next t →
    (t.Faulted ↔ ∃ (x : Transaction) (rest : List Event), s.inbox = .host x :: rest ∧
      (x.wellFormed s.dmem.size = false ∨
        ∃ n a v p, x = .dmemWrite n a v ∧ s.engine = .busy p ∧ p.latch.meets a.toNat n = true))

/-- R39, R103: while a command stays in flight its latch and its output are the ones taken at issue: no register
write, no further command and no DMEM write changes them. -/
def Obligations.CommandInFlightIsKept : Prop :=
  ∀ (s t : State) (p q : Pending), step s = .next t → s.engine = .busy p → t.engine = .busy q →
    q.latch = p.latch ∧ q.out = p.out

/-- R102, R148: a command in flight ends in success (ERR_CODE and ERR_INFO 0, DONE set, the other registers kept) or
by a reset (every register at its reset value), and never with an error. -/
def Obligations.AcceptedCommandEndsInSuccessOrReset : Prop :=
  ∀ (s t : State) (p : Pending), step s = .next t → s.engine = .busy p → t.engine = .idle →
    ((s.inbox = [] ∨ s.inbox.head? = some .engine) ∧
      t.regs = { s.regs with
        errCode := 0x00#8, errInfo := 0#32, irqStatus := s.regs.irqStatus ||| 0b001#3 }) ∨
    ((s.inbox.head? = some .hwReset ∨
        ∃ v : Word, v.toNat % 2 = 1 ∧ s.inbox.head? = some (.host (.regWrite 4 0x008#12 v))) ∧
      t.regs = Regs.reset)

/-- R26: a status bit, once 1, stays 1 until the host writes a 1 to it or a reset. -/
def Obligations.StatusBitsAreSticky : Prop :=
  ∀ (s t : State) (k : Nat), step s = .next t →
    s.regs.irqStatus.getLsbD k = true → t.regs.irqStatus.getLsbD k = false →
      (∃ v : Word, s.inbox.head? = some (.host (.regWrite 4 0x014#12 v)) ∧ v.getLsbD k = true) ∨
      (∃ v : Word, s.inbox.head? = some (.host (.regWrite 4 0x008#12 v)) ∧ v.getLsbD 0 = true) ∨
      s.inbox.head? = some .hwReset

/-- R52, R87: a DMEM byte changes only by the end of a command in flight, inside that command's destination; by a host
DMEM write to it; or by a hardware reset. No register write to an Idle block, no read and no rejected command changes
one. -/
def Obligations.DmemChangesOnlyWhereAllowed : Prop :=
  ∀ (s t : State) (x : Nat), s.Inv → step s = .next t → t.dmem.read x ≠ s.dmem.read x →
    (∃ p, s.engine = .busy p ∧ t.engine = .idle ∧ p.latch.regions.dst.contains x = true) ∨
    (∃ n a v, s.inbox.head? = some (.host (.dmemWrite n a v)) ∧ a.toNat ≤ x ∧ x < a.toNat + n) ∨
    s.inbox.head? = some .hwReset

/-- R101, R158: after a host write has met its regions, a command's completion leaves every backed destination byte a
draw (the model's form of "unspecified": log 6), every other byte as it was, and still reports success. -/
def Obligations.CompletionAfterAHazardIsUnspecified : Prop :=
  ∀ (s : State) (p : Pending), s.engine = .busy p → p.hazard = true → s.inbox = [] ∨ s.inbox.head? = some .engine →
    ∃ m : Memory,
      step s = .next { s with
        inbox := s.inbox.tail, engine := .idle, dmem := m, draws := s.draws + p.latch.regions.dst.len,
        regs := { s.regs with
          errCode := 0x00#8, errInfo := 0#32, irqStatus := s.regs.irqStatus ||| 0b001#3 } } ∧
      m.size = s.dmem.size ∧
      (∀ k < p.latch.regions.dst.len, p.latch.regions.dst.base + k < s.dmem.size →
        m.read (p.latch.regions.dst.base + k) = Config.draw (s.draws + k)) ∧
      (∀ a, p.latch.regions.dst.contains a = false → m.read a = s.dmem.read a)

/-- R179 in the model's form (log 4): once the events pending in any state have been taken and one more step made, the
inbox is empty and the engine Idle, so every accepted command has ended. -/
def Obligations.EveryRunComesToRest : Prop :=
  ∀ s : State, ∃ t : State,
    Host.Core.run core (s.inbox.length + 1) s = .next t ∧ t.inbox = [] ∧ t.engine = .idle
end

