-- ==== Sys2Proof/Laws/Memory.lean ====
section
/-! SUPPORT. DMEM: a read after a write, the canonical form, and what a run of writes does. -/

namespace Sys2Proof.Machine

/-! ## Cells -/

theorem cellAt_putCell (x a : Nat) (b : Byte) (cs : List Host.Cell) :
    cellAt x (putCell a b cs) = if x = a then some b else cellAt x cs := by
  induction cs with
  | nil => simp [putCell, cellAt, eq_comm]
  | cons c rest ih =>
    obtain ⟨y, d⟩ := c
    simp only [putCell]
    split
    · simp [cellAt, eq_comm]
    · split
      · rename_i h; subst h; by_cases hx : x = a <;> simp [cellAt, hx, eq_comm]
      · rename_i h; by_cases hy : y = x
        · subst hy; simp [cellAt, Ne.symm h]
        · simp [cellAt, hy, ih]

theorem risingFrom_putCell {lo a : Nat} (b : Byte) {cs : List Host.Cell} (h : risingFrom lo cs = true)
    (ha : lo ≤ a) : risingFrom lo (putCell a b cs) = true := by
  induction cs generalizing lo with
  | nil => simp [putCell, risingFrom, ha]
  | cons c rest ih =>
    obtain ⟨y, d⟩ := c
    simp only [risingFrom, Bool.and_eq_true, decide_eq_true_eq] at h
    simp only [putCell]
    split
    · rename_i hlt; simp [risingFrom, ha, h.2, Nat.succ_le_of_lt hlt]
    · split
      · rename_i _ heq; subst heq; simp [risingFrom, h.1, h.2]
      · simp only [risingFrom, Bool.and_eq_true, decide_eq_true_eq]
        exact ⟨h.1, ih h.2 (by omega)⟩

theorem mem_putCell {a : Nat} {b : Byte} {cs : List Host.Cell} {c : Host.Cell} (h : c ∈ putCell a b cs) :
    c = (a, b) ∨ c ∈ cs := by
  induction cs with
  | nil => simpa [putCell] using h
  | cons d rest ih =>
    simp only [putCell] at h
    split at h
    · simpa using h
    · split at h
      · rcases List.mem_cons.1 h with h | h
        · exact .inl h
        · exact .inr (List.mem_cons_of_mem _ h)
      · rcases List.mem_cons.1 h with h | h
        · exact .inr (h ▸ List.mem_cons_self)
        · exact (ih h).imp id (List.mem_cons_of_mem _)

/-- Below its first address a rising list holds nothing. -/
theorem cellAt_eq_none_of_lt {lo x : Nat} {cs : List Host.Cell} (h : risingFrom lo cs = true) (hx : x < lo) :
    cellAt x cs = none := by
  induction cs generalizing lo with
  | nil => rfl
  | cons c rest ih =>
    obtain ⟨y, d⟩ := c
    simp only [risingFrom, Bool.and_eq_true, decide_eq_true_eq] at h
    have hy : y ≠ x := by omega
    simp [cellAt, hy, ih h.2 (by omega)]

/-- Rising lists that hold the same bytes are the same list. -/
theorem rising_ext {lo : Nat} {cs ds : List Host.Cell} (hc : risingFrom lo cs = true) (hd : risingFrom lo ds = true)
    (h : ∀ x, cellAt x cs = cellAt x ds) : cs = ds := by
  induction cs generalizing lo ds with
  | nil =>
    cases ds with
    | nil => rfl
    | cons d rest => exact absurd (h d.1) (by simp [cellAt])
  | cons c rest ih =>
    obtain ⟨y, b⟩ := c
    cases ds with
    | nil => exact absurd (h y) (by simp [cellAt])
    | cons d rest' =>
      obtain ⟨z, e⟩ := d
      simp only [risingFrom, Bool.and_eq_true, decide_eq_true_eq] at hc hd
      have hyz : y = z := by
        rcases Nat.lt_trichotomy y z with hlt | heq | hgt
        · have := h y
          rw [cellAt, if_pos rfl, cellAt, if_neg (by omega), cellAt_eq_none_of_lt hd.2 (by omega)] at this
          cases this
        · exact heq
        · have := h z
          rw [cellAt, if_neg (by omega), cellAt_eq_none_of_lt hc.2 (by omega), cellAt, if_pos rfl] at this
          cases this
      subst hyz
      have hbe : b = e := by simpa [cellAt] using h y
      subst hbe
      refine congrArg _ (ih hc.2 hd.2 fun x => ?_)
      by_cases hx : y = x
      · rw [cellAt_eq_none_of_lt hc.2 (by omega), cellAt_eq_none_of_lt hd.2 (by omega)]
      · simpa [cellAt, hx] using h x

/-! ## One byte -/

@[simp] theorem Memory.write_size (m : Memory) (a : Nat) (b : Byte) : (m.write a b).size = m.size := by
  unfold Memory.write; split <;> rfl

@[simp] theorem Memory.write_era (m : Memory) (a : Nat) (b : Byte) : (m.write a b).era = m.era := by
  unfold Memory.write; split <;> rfl

/-- A read after a write: the byte written at a backed address, and every other byte as it was. -/
theorem Memory.read_write (m : Memory) (a x : Nat) (b : Byte) :
    (m.write a b).read x = if x = a ∧ a < m.size then b else m.read x := by
  unfold Memory.write
  split
  · rename_i h
    by_cases hx : x = a <;> simp [Memory.read, cellAt_putCell, hx, h]
  · rename_i h; simp [h]

theorem Memory.wf_write {m : Memory} (h : m.wf = true) (a : Nat) (b : Byte) : (m.write a b).wf = true := by
  unfold Memory.write
  split
  · rename_i ha
    simp only [Memory.wf, Bool.and_eq_true, List.all_eq_true, decide_eq_true_eq] at h ⊢
    refine ⟨risingFrom_putCell b h.1 (Nat.zero_le a), fun c hc => ?_⟩
    rcases mem_putCell hc with rfl | hc
    · exact ha
    · exact h.2 c hc
  · exact h

/-- Canonical memories of one size and one reset that hold the same written bytes are equal. -/
theorem Memory.ext_of_wf {m m' : Memory} (h : m.wf = true) (h' : m'.wf = true) (hs : m.size = m'.size)
    (he : m.era = m'.era) (hc : ∀ x, cellAt x m.cells = cellAt x m'.cells) : m = m' := by
  obtain ⟨s, e, cs⟩ := m
  obtain ⟨s', e', cs'⟩ := m'
  simp only [Memory.wf, Bool.and_eq_true] at h h'
  have := rising_ext h.1 h'.1 hc
  simp_all

/-! ## A run of bytes -/

@[simp] theorem Memory.writeBytes_size (m : Memory) (a : Nat) (bs : List Byte) : (m.writeBytes a bs).size = m.size := by
  induction bs generalizing m a with
  | nil => rfl
  | cons b bs ih => rw [Memory.writeBytes, ih, Memory.write_size]

@[simp] theorem Memory.writeBytes_era (m : Memory) (a : Nat) (bs : List Byte) : (m.writeBytes a bs).era = m.era := by
  induction bs generalizing m a with
  | nil => rfl
  | cons b bs ih => rw [Memory.writeBytes, ih, Memory.write_era]

theorem Memory.wf_writeBytes {m : Memory} (h : m.wf = true) (a : Nat) (bs : List Byte) :
    (m.writeBytes a bs).wf = true := by
  induction bs generalizing m a with
  | nil => exact h
  | cons b bs ih => exact ih (m.wf_write h a b) _

/-- Outside the bytes written, a read gives what it gave. -/
theorem Memory.read_writeBytes_outside (m : Memory) {a x : Nat} (bs : List Byte)
    (h : x < a ∨ a + bs.length ≤ x) : (m.writeBytes a bs).read x = m.read x := by
  induction bs generalizing m a with
  | nil => rfl
  | cons b bs ih =>
    rw [List.length_cons] at h
    rw [Memory.writeBytes, ih _ (by omega), Memory.read_write, if_neg (by omega)]

/-- Inside the bytes written, a read of a backed address gives the byte. -/
theorem Memory.read_writeBytes_inside (m : Memory) {a k : Nat} (bs : List Byte) (hk : k < bs.length)
    (hs : a + k < m.size) : (m.writeBytes a bs).read (a + k) = bs[k] := by
  induction bs generalizing m a k with
  | nil => exact absurd hk (Nat.not_lt_zero k)
  | cons b bs ih =>
    cases k with
    | zero =>
      rw [Memory.writeBytes, Nat.add_zero, Memory.read_writeBytes_outside _ _ (by omega), Memory.read_write,
        if_pos ⟨rfl, by simpa using hs⟩]
      rfl
    | succ k =>
      rw [Memory.writeBytes, show a + (k + 1) = a + 1 + k by omega,
        ih (m.write a b) (by simpa using hk) (by rw [Memory.write_size]; omega)]
      rfl

/-! ## A hardware reset -/

@[simp] theorem Memory.reset_size (m : Memory) : m.reset.size = m.size := rfl
@[simp] theorem Memory.reset_era (m : Memory) : m.reset.era = m.era + 1 := rfl
@[simp] theorem Memory.reset_cells (m : Memory) : m.reset.cells = [] := rfl
@[simp] theorem Memory.wf_reset (m : Memory) : m.reset.wf = true := rfl
@[simp] theorem Memory.read_reset (m : Memory) (a : Nat) : m.reset.read a = Config.resetByte (m.era + 1) a := rfl

/-! ## Draws and little-endian values -/

@[simp] theorem drawn_length (first n : Nat) : (drawn first n).length = n := by simp [drawn]

@[simp] theorem drawn_getElem (first n k : Nat) (h : k < (drawn first n).length) :
    (drawn first n)[k] = Config.draw (first + k) := by simp [drawn]

@[simp] theorem littleEndian_length (n : Nat) (v : Word) : (littleEndian n v).length = n := by simp [littleEndian]

@[simp] theorem littleEndian_getElem (n k : Nat) (v : Word) (h : k < (littleEndian n v).length) :
    (littleEndian n v)[k] = byteLane v k := by simp [littleEndian]

theorem byteLane_toNat (v : Word) (k : Nat) : (byteLane v k).toNat = v.toNat / 256 ^ k % 256 := by
  simp [byteLane, BitVec.extractLsb'_toNat, Nat.shiftRight_eq_div_pow, Nat.pow_mul]

theorem littleEndianValue_lt (bs : List Byte) : littleEndianValue bs < 256 ^ bs.length := by
  induction bs with
  | nil => simp [littleEndianValue]
  | cons b bs ih =>
    have := b.isLt
    rw [littleEndianValue, List.length_cons, Nat.pow_succ]
    omega

/-- Byte k of a little-endian value is its k-th byte. -/
theorem littleEndianValue_byte (bs : List Byte) (k : Nat) (h : k < bs.length) :
    littleEndianValue bs / 256 ^ k % 256 = bs[k].toNat := by
  induction bs generalizing k with
  | nil => exact absurd h (Nat.not_lt_zero k)
  | cons b bs ih =>
    have hb := b.isLt
    cases k with
    | zero => simp only [littleEndianValue, Nat.pow_zero, Nat.div_one, List.getElem_cons_zero]; omega
    | succ k =>
      rw [littleEndianValue, Nat.pow_succ, Nat.mul_comm (256 ^ k), ← Nat.div_div_eq_div_mul,
        show (b.toNat + 256 * littleEndianValue bs) / 256 = littleEndianValue bs by omega]
      simpa using ih k (by simpa using h)

/-- The value of the bytes a value is cut into. -/
theorem littleEndianValue_littleEndian (n : Nat) (v : Word) :
    littleEndianValue (littleEndian n v) = v.toNat % 256 ^ n := by
  have key : ∀ n k, littleEndianValue ((List.range n).map fun i => byteLane v (k + i))
      = v.toNat / 256 ^ k % 256 ^ n := by
    intro n
    induction n with
    | zero => intro k; simp [littleEndianValue, Nat.mod_one]
    | succ n ih =>
      intro k
      rw [List.range_succ_eq_map, List.map_cons, List.map_map, littleEndianValue]
      have : ((fun i => byteLane v (k + i)) ∘ Nat.succ) = fun i => byteLane v (k + 1 + i) := by
        funext i; simp [Nat.add_assoc, Nat.add_comm 1 i]
      rw [this, ih (k + 1), Nat.add_zero, byteLane_toNat, Nat.pow_succ, Nat.pow_succ,
        ← Nat.div_div_eq_div_mul, Nat.mul_comm (256 ^ n) 256, Nat.mod_mul]
  simpa [littleEndian] using key n 0

end Sys2Proof.Machine
end

