-- ==== Sys2Proof/Laws/Operands.lean ====
section
/-! SUPPORT. Frame lengths, regions and the outputs of the commands: their lengths and their bytes by index. -/

namespace Sys2Proof.Machine

/-! ## Frame lengths of even dimensions -/

/-- With even dimensions the chroma plane is the (W/2)·(H/2) bytes of R56. -/
theorem lChroma_even {W H : Nat} (hW : W % 2 = 0) (hH : H % 2 = 0) : lChroma W H = H / 2 * (W / 2) := by
  obtain ⟨a, rfl⟩ := Nat.dvd_of_mod_eq_zero hW
  obtain ⟨b, rfl⟩ := Nat.dvd_of_mod_eq_zero hH
  rw [lChroma, show 2 * a * (2 * b) = b * a * 4 by ring, Nat.mul_div_cancel _ (by decide)]
  simp

/-- LPLANAR = LY + 2·LC (20_memory.md R56). -/
theorem lPlanar_even {W H : Nat} (hW : W % 2 = 0) (hH : H % 2 = 0) :
    lPlanar W H = lLuma W H + lChroma W H + lChroma W H := by
  obtain ⟨a, rfl⟩ := Nat.dvd_of_mod_eq_zero hW
  obtain ⟨b, rfl⟩ := Nat.dvd_of_mod_eq_zero hH
  rw [lPlanar, lLuma, lChroma, show 2 * a * (2 * b) = b * a * 4 by ring, Nat.mul_div_cancel _ (by decide)]
  omega

/-- An index below W·H is reached from its row and column. -/
theorem rowMajor_lt {W H r c : Nat} (hr : r < H) (hc : c < W) : r * W + c < W * H := by
  have h : (r + 1) * W ≤ H * W := Nat.mul_le_mul_right W hr
  rw [Nat.succ_mul] at h
  rw [Nat.mul_comm W H]
  omega

theorem rowMajor_div {W r c : Nat} (hc : c < W) : (r * W + c) / W = r := by
  rw [Nat.mul_comm, Nat.mul_add_div (by omega), Nat.div_eq_of_lt hc, Nat.add_zero]

theorem rowMajor_mod {W r c : Nat} (hc : c < W) : (r * W + c) % W = c := by
  rw [Nat.mul_comm, Nat.mul_add_mod, Nat.mod_eq_of_lt hc]

/-! ## Regions -/

@[simp] theorem Region.none_len : Region.none.len = 0 := rfl
@[simp] theorem Region.none_base : Region.none.base = 0 := rfl

@[simp] theorem latch_op (op : Op) (cont : Bool) (r : Regs) : (latch op cont r).op = op := rfl
@[simp] theorem latch_cont (op : Op) (cont : Bool) (r : Regs) : (latch op cont r).cont = cont := rfl
@[simp] theorem latch_w (op : Op) (cont : Bool) (r : Regs) : (latch op cont r).w = r.width := rfl
@[simp] theorem latch_h (op : Op) (cont : Bool) (r : Regs) : (latch op cont r).h = r.height := rfl
@[simp] theorem latch_n (op : Op) (cont : Bool) (r : Regs) : (latch op cont r).n = r.frameCount := rfl
@[simp] theorem latch_src (op : Op) (cont : Bool) (r : Regs) : (latch op cont r).src = r.srcAddr := rfl
@[simp] theorem latch_dst (op : Op) (cont : Bool) (r : Regs) : (latch op cont r).dst = r.dstAddr := rfl
@[simp] theorem latch_ref (op : Op) (cont : Bool) (r : Regs) : (latch op cont r).ref = r.refAddr := rfl

/-- A command that writes anything writes it at L.DST. -/
theorem Latch.dst_base {L : Latch} (h : L.op ≠ .nop) : L.regions.dst.base = L.dst.toNat := by
  unfold Latch.regions; split <;> simp_all

/-! ## Outputs -/

@[simp] theorem fCscFwd_length (L : Latch) (M : Nat → Byte) : (fCscFwd L M).length = L.n.toNat * L.lPlanar := by
  simp [fCscFwd]

@[simp] theorem fCscInv_length (L : Latch) (M : Nat → Byte) : (fCscInv L M).length = L.n.toNat * L.lRaw := by
  simp [fCscInv]

@[simp] theorem fDeltaFwd_length (L : Latch) (M : Nat → Byte) : (fDeltaFwd L M).length = L.n.toNat * L.lPlanar := by
  simp [fDeltaFwd]

@[simp] theorem fDeltaInv_length (L : Latch) (M : Nat → Byte) : (fDeltaInv L M).length = L.n.toNat * L.lPlanar := by
  simp [fDeltaInv]

/-- Byte j of frame f of an output made frame by frame. -/
theorem frames_getElem {n len f j : Nat} (g : Nat → Nat → Byte) (hf : f < n) (hj : j < len) :
    ((List.range (n * len)).map fun k => g (k / len) (k % len))[f * len + j]? = some (g f j) := by
  have hlt : f * len + j < n * len := by
    have h : (f + 1) * len ≤ n * len := Nat.mul_le_mul_right len hf
    rw [Nat.succ_mul] at h
    omega
  rw [List.getElem?_map, List.getElem?_range hlt, Option.map_some, rowMajor_div hj, rowMajor_mod hj]

theorem fCscFwd_byte (L : Latch) (M : Nat → Byte) {f j : Nat} (hf : f < L.n.toNat) (hj : j < L.lPlanar) :
    (fCscFwd L M)[f * L.lPlanar + j]? =
      some (planarByte M L.w.toNat L.h.toNat (L.src.toNat + f * L.lRaw) j) :=
  frames_getElem (fun f j => planarByte M L.w.toNat L.h.toNat (L.src.toNat + f * L.lRaw) j) hf hj

theorem fCscInv_byte (L : Latch) (M : Nat → Byte) {f j : Nat} (hf : f < L.n.toNat) (hj : j < L.lRaw) :
    (fCscInv L M)[f * L.lRaw + j]? = some (rawByte M L.w.toNat L.h.toNat (L.src.toNat + f * L.lPlanar) j) :=
  frames_getElem (fun f j => rawByte M L.w.toNat L.h.toNat (L.src.toNat + f * L.lPlanar) j) hf hj

theorem fDeltaFwd_byte (L : Latch) (M : Nat → Byte) {i j : Nat} (hi : i < L.n.toNat) (hj : j < L.lPlanar) :
    (fDeltaFwd L M)[i * L.lPlanar + j]? = some (deltaFwdByte L M i j) :=
  frames_getElem (deltaFwdByte L M) hi hj

theorem fDeltaInv_byte (L : Latch) (M : Nat → Byte) {i j : Nat} (hi : i < L.n.toNat) (hj : j < L.lPlanar) :
    (fDeltaInv L M)[i * L.lPlanar + j]? = some (deltaInvByte L M i j) :=
  frames_getElem (deltaInvByte L M) hi hj

@[simp] theorem deltaFwdByte_succ (L : Latch) (M : Nat → Byte) (i j : Nat) :
    deltaFwdByte L M (i + 1) j = pred (sourceByte L M (i + 1) j) (sourceByte L M i j) := rfl

@[simp] theorem deltaInvByte_succ (L : Latch) (M : Nat → Byte) (i j : Nat) :
    deltaInvByte L M (i + 1) j = recon (sourceByte L M (i + 1) j) (deltaInvByte L M i j) := rfl

end Sys2Proof.Machine
end

