-- ==== Sys2Proof/Laws/State.lean ====
section
/-! SUPPORT. One lemma per field per update of the state, each true by rfl, so that no proof unfolds a record. -/

namespace Sys2Proof.Machine

/-! Storing CMD at issue. -/

@[simp] theorem State.storeCommand_regs_cmd (s : State) (w : Word) :
    (s.storeCommand w).regs.cmd = w := rfl
@[simp] theorem State.storeCommand_regs_irqStatus (s : State) (w : Word) :
    (s.storeCommand w).regs.irqStatus = s.regs.irqStatus := rfl
@[simp] theorem State.storeCommand_regs_irqEnable (s : State) (w : Word) :
    (s.storeCommand w).regs.irqEnable = s.regs.irqEnable := rfl
@[simp] theorem State.storeCommand_regs_errCode (s : State) (w : Word) :
    (s.storeCommand w).regs.errCode = s.regs.errCode := rfl
@[simp] theorem State.storeCommand_regs_errInfo (s : State) (w : Word) :
    (s.storeCommand w).regs.errInfo = s.regs.errInfo := rfl
@[simp] theorem State.storeCommand_regs_width (s : State) (w : Word) :
    (s.storeCommand w).regs.width = s.regs.width := rfl
@[simp] theorem State.storeCommand_regs_height (s : State) (w : Word) :
    (s.storeCommand w).regs.height = s.regs.height := rfl
@[simp] theorem State.storeCommand_regs_frameCount (s : State) (w : Word) :
    (s.storeCommand w).regs.frameCount = s.regs.frameCount := rfl
@[simp] theorem State.storeCommand_regs_srcAddr (s : State) (w : Word) :
    (s.storeCommand w).regs.srcAddr = s.regs.srcAddr := rfl
@[simp] theorem State.storeCommand_regs_dstAddr (s : State) (w : Word) :
    (s.storeCommand w).regs.dstAddr = s.regs.dstAddr := rfl
@[simp] theorem State.storeCommand_regs_refAddr (s : State) (w : Word) :
    (s.storeCommand w).regs.refAddr = s.regs.refAddr := rfl
@[simp] theorem State.storeCommand_engine (s : State) (w : Word) :
    (s.storeCommand w).engine = s.engine := rfl
@[simp] theorem State.storeCommand_dmem (s : State) (w : Word) :
    (s.storeCommand w).dmem = s.dmem := rfl
@[simp] theorem State.storeCommand_fault (s : State) (w : Word) :
    (s.storeCommand w).fault = s.fault := rfl
@[simp] theorem State.storeCommand_draws (s : State) (w : Word) :
    (s.storeCommand w).draws = s.draws := rfl
@[simp] theorem State.storeCommand_inbox (s : State) (w : Word) :
    (s.storeCommand w).inbox = s.inbox := rfl
@[simp] theorem State.storeCommand_response (s : State) (w : Word) :
    (s.storeCommand w).response = s.response := rfl

/-! Error completion. -/

@[simp] theorem State.completeError_regs_cmd (s : State) (code : BitVec 8) (info : Word) :
    (s.completeError code info).regs.cmd = s.regs.cmd := rfl
@[simp] theorem State.completeError_regs_irqStatus (s : State) (code : BitVec 8) (info : Word) :
    (s.completeError code info).regs.irqStatus = raiseFlag flagErr s.regs.irqStatus := rfl
@[simp] theorem State.completeError_regs_irqEnable (s : State) (code : BitVec 8) (info : Word) :
    (s.completeError code info).regs.irqEnable = s.regs.irqEnable := rfl
@[simp] theorem State.completeError_regs_errCode (s : State) (code : BitVec 8) (info : Word) :
    (s.completeError code info).regs.errCode = code := rfl
@[simp] theorem State.completeError_regs_errInfo (s : State) (code : BitVec 8) (info : Word) :
    (s.completeError code info).regs.errInfo = info := rfl
@[simp] theorem State.completeError_regs_width (s : State) (code : BitVec 8) (info : Word) :
    (s.completeError code info).regs.width = s.regs.width := rfl
@[simp] theorem State.completeError_regs_height (s : State) (code : BitVec 8) (info : Word) :
    (s.completeError code info).regs.height = s.regs.height := rfl
@[simp] theorem State.completeError_regs_frameCount (s : State) (code : BitVec 8) (info : Word) :
    (s.completeError code info).regs.frameCount = s.regs.frameCount := rfl
@[simp] theorem State.completeError_regs_srcAddr (s : State) (code : BitVec 8) (info : Word) :
    (s.completeError code info).regs.srcAddr = s.regs.srcAddr := rfl
@[simp] theorem State.completeError_regs_dstAddr (s : State) (code : BitVec 8) (info : Word) :
    (s.completeError code info).regs.dstAddr = s.regs.dstAddr := rfl
@[simp] theorem State.completeError_regs_refAddr (s : State) (code : BitVec 8) (info : Word) :
    (s.completeError code info).regs.refAddr = s.regs.refAddr := rfl
@[simp] theorem State.completeError_engine (s : State) (code : BitVec 8) (info : Word) :
    (s.completeError code info).engine = s.engine := rfl
@[simp] theorem State.completeError_dmem (s : State) (code : BitVec 8) (info : Word) :
    (s.completeError code info).dmem = s.dmem := rfl
@[simp] theorem State.completeError_fault (s : State) (code : BitVec 8) (info : Word) :
    (s.completeError code info).fault = s.fault := rfl
@[simp] theorem State.completeError_draws (s : State) (code : BitVec 8) (info : Word) :
    (s.completeError code info).draws = s.draws := rfl
@[simp] theorem State.completeError_inbox (s : State) (code : BitVec 8) (info : Word) :
    (s.completeError code info).inbox = s.inbox := rfl
@[simp] theorem State.completeError_response (s : State) (code : BitVec 8) (info : Word) :
    (s.completeError code info).response = s.response := rfl

/-! Success. -/

@[simp] theorem State.completeEmpty_regs_cmd (s : State) :
    (s.completeEmpty).regs.cmd = s.regs.cmd := rfl
@[simp] theorem State.completeEmpty_regs_irqStatus (s : State) :
    (s.completeEmpty).regs.irqStatus = raiseFlag flagDone s.regs.irqStatus := rfl
@[simp] theorem State.completeEmpty_regs_irqEnable (s : State) :
    (s.completeEmpty).regs.irqEnable = s.regs.irqEnable := rfl
@[simp] theorem State.completeEmpty_regs_errCode (s : State) :
    (s.completeEmpty).regs.errCode = 0x00#8 := rfl
@[simp] theorem State.completeEmpty_regs_errInfo (s : State) :
    (s.completeEmpty).regs.errInfo = 0#32 := rfl
@[simp] theorem State.completeEmpty_regs_width (s : State) :
    (s.completeEmpty).regs.width = s.regs.width := rfl
@[simp] theorem State.completeEmpty_regs_height (s : State) :
    (s.completeEmpty).regs.height = s.regs.height := rfl
@[simp] theorem State.completeEmpty_regs_frameCount (s : State) :
    (s.completeEmpty).regs.frameCount = s.regs.frameCount := rfl
@[simp] theorem State.completeEmpty_regs_srcAddr (s : State) :
    (s.completeEmpty).regs.srcAddr = s.regs.srcAddr := rfl
@[simp] theorem State.completeEmpty_regs_dstAddr (s : State) :
    (s.completeEmpty).regs.dstAddr = s.regs.dstAddr := rfl
@[simp] theorem State.completeEmpty_regs_refAddr (s : State) :
    (s.completeEmpty).regs.refAddr = s.regs.refAddr := rfl
@[simp] theorem State.completeEmpty_engine (s : State) :
    (s.completeEmpty).engine = s.engine := rfl
@[simp] theorem State.completeEmpty_dmem (s : State) :
    (s.completeEmpty).dmem = s.dmem := rfl
@[simp] theorem State.completeEmpty_fault (s : State) :
    (s.completeEmpty).fault = s.fault := rfl
@[simp] theorem State.completeEmpty_draws (s : State) :
    (s.completeEmpty).draws = s.draws := rfl
@[simp] theorem State.completeEmpty_inbox (s : State) :
    (s.completeEmpty).inbox = s.inbox := rfl
@[simp] theorem State.completeEmpty_response (s : State) :
    (s.completeEmpty).response = s.response := rfl

/-! Acceptance. -/

@[simp] theorem State.accept_regs (s : State) (L : Latch) (out : List Byte) :
    (s.accept L out).regs = s.regs := rfl
@[simp] theorem State.accept_engine (s : State) (L : Latch) (out : List Byte) :
    (s.accept L out).engine = .busy { latch := L, out := out, hazard := false } := rfl
@[simp] theorem State.accept_dmem (s : State) (L : Latch) (out : List Byte) :
    (s.accept L out).dmem = s.dmem := rfl
@[simp] theorem State.accept_fault (s : State) (L : Latch) (out : List Byte) :
    (s.accept L out).fault = s.fault := rfl
@[simp] theorem State.accept_draws (s : State) (L : Latch) (out : List Byte) :
    (s.accept L out).draws = s.draws := rfl
@[simp] theorem State.accept_inbox (s : State) (L : Latch) (out : List Byte) :
    (s.accept L out).inbox = s.inbox := rfl
@[simp] theorem State.accept_response (s : State) (L : Latch) (out : List Byte) :
    (s.accept L out).response = s.response := rfl

/-! Overrun. -/

@[simp] theorem State.overrun_regs_cmd (s : State) :
    (s.overrun).regs.cmd = s.regs.cmd := rfl
@[simp] theorem State.overrun_regs_irqStatus (s : State) :
    (s.overrun).regs.irqStatus = raiseFlag flagOverrun s.regs.irqStatus := rfl
@[simp] theorem State.overrun_regs_irqEnable (s : State) :
    (s.overrun).regs.irqEnable = s.regs.irqEnable := rfl
@[simp] theorem State.overrun_regs_errCode (s : State) :
    (s.overrun).regs.errCode = s.regs.errCode := rfl
@[simp] theorem State.overrun_regs_errInfo (s : State) :
    (s.overrun).regs.errInfo = s.regs.errInfo := rfl
@[simp] theorem State.overrun_regs_width (s : State) :
    (s.overrun).regs.width = s.regs.width := rfl
@[simp] theorem State.overrun_regs_height (s : State) :
    (s.overrun).regs.height = s.regs.height := rfl
@[simp] theorem State.overrun_regs_frameCount (s : State) :
    (s.overrun).regs.frameCount = s.regs.frameCount := rfl
@[simp] theorem State.overrun_regs_srcAddr (s : State) :
    (s.overrun).regs.srcAddr = s.regs.srcAddr := rfl
@[simp] theorem State.overrun_regs_dstAddr (s : State) :
    (s.overrun).regs.dstAddr = s.regs.dstAddr := rfl
@[simp] theorem State.overrun_regs_refAddr (s : State) :
    (s.overrun).regs.refAddr = s.regs.refAddr := rfl
@[simp] theorem State.overrun_engine (s : State) :
    (s.overrun).engine = s.engine := rfl
@[simp] theorem State.overrun_dmem (s : State) :
    (s.overrun).dmem = s.dmem := rfl
@[simp] theorem State.overrun_fault (s : State) :
    (s.overrun).fault = s.fault := rfl
@[simp] theorem State.overrun_draws (s : State) :
    (s.overrun).draws = s.draws := rfl
@[simp] theorem State.overrun_inbox (s : State) :
    (s.overrun).inbox = s.inbox := rfl
@[simp] theorem State.overrun_response (s : State) :
    (s.overrun).response = s.response := rfl

/-! The answer of the bus. -/

@[simp] theorem State.respond_regs (s : State) (r : Response) :
    (s.respond r).regs = s.regs := rfl
@[simp] theorem State.respond_engine (s : State) (r : Response) :
    (s.respond r).engine = s.engine := rfl
@[simp] theorem State.respond_dmem (s : State) (r : Response) :
    (s.respond r).dmem = s.dmem := rfl
@[simp] theorem State.respond_fault (s : State) (r : Response) :
    (s.respond r).fault = s.fault := rfl
@[simp] theorem State.respond_draws (s : State) (r : Response) :
    (s.respond r).draws = s.draws := rfl
@[simp] theorem State.respond_inbox (s : State) (r : Response) :
    (s.respond r).inbox = s.inbox := rfl
@[simp] theorem State.respond_response (s : State) (r : Response) :
    (s.respond r).response = some r := rfl

/-! The fault record. -/

@[simp] theorem State.recordFault_regs (s : State) (f : Fault) :
    (s.recordFault f).regs = s.regs := rfl
@[simp] theorem State.recordFault_engine (s : State) (f : Fault) :
    (s.recordFault f).engine = s.engine := rfl
@[simp] theorem State.recordFault_dmem (s : State) (f : Fault) :
    (s.recordFault f).dmem = s.dmem := rfl
@[simp] theorem State.recordFault_fault (s : State) (f : Fault) :
    (s.recordFault f).fault = s.fault.or (some f) := rfl
@[simp] theorem State.recordFault_draws (s : State) (f : Fault) :
    (s.recordFault f).draws = s.draws := rfl
@[simp] theorem State.recordFault_inbox (s : State) (f : Fault) :
    (s.recordFault f).inbox = s.inbox := rfl
@[simp] theorem State.recordFault_response (s : State) (f : Fault) :
    (s.recordFault f).response = s.response := rfl

/-! A bus error. -/

@[simp] theorem State.busError_regs (s : State) (t : Transaction) :
    (s.busError t).regs = s.regs := rfl
@[simp] theorem State.busError_engine (s : State) (t : Transaction) :
    (s.busError t).engine = s.engine := rfl
@[simp] theorem State.busError_dmem (s : State) (t : Transaction) :
    (s.busError t).dmem = s.dmem := rfl
@[simp] theorem State.busError_fault (s : State) (t : Transaction) :
    (s.busError t).fault = s.fault.or (some (.busFault t)) := rfl
@[simp] theorem State.busError_draws (s : State) (t : Transaction) :
    (s.busError t).draws = s.draws := rfl
@[simp] theorem State.busError_inbox (s : State) (t : Transaction) :
    (s.busError t).inbox = s.inbox := rfl
@[simp] theorem State.busError_response (s : State) (t : Transaction) :
    (s.busError t).response = some .busError := rfl

/-! A hazard. -/

@[simp] theorem State.hazard_regs (s : State) (p : Pending) (t : Transaction) :
    (s.hazard p t).regs = s.regs := rfl
@[simp] theorem State.hazard_engine (s : State) (p : Pending) (t : Transaction) :
    (s.hazard p t).engine = .busy { p with hazard := true } := rfl
@[simp] theorem State.hazard_dmem (s : State) (p : Pending) (t : Transaction) :
    (s.hazard p t).dmem = s.dmem := rfl
@[simp] theorem State.hazard_fault (s : State) (p : Pending) (t : Transaction) :
    (s.hazard p t).fault = s.fault.or (some (.hazardFault t)) := rfl
@[simp] theorem State.hazard_draws (s : State) (p : Pending) (t : Transaction) :
    (s.hazard p t).draws = s.draws := rfl
@[simp] theorem State.hazard_inbox (s : State) (p : Pending) (t : Transaction) :
    (s.hazard p t).inbox = s.inbox := rfl
@[simp] theorem State.hazard_response (s : State) (p : Pending) (t : Transaction) :
    (s.hazard p t).response = s.response := rfl

/-! Drawing a destination. -/

@[simp] theorem State.drawDestination_regs (s : State) (L : Latch) :
    (s.drawDestination L).regs = s.regs := rfl
@[simp] theorem State.drawDestination_engine (s : State) (L : Latch) :
    (s.drawDestination L).engine = s.engine := rfl
@[simp] theorem State.drawDestination_dmem (s : State) (L : Latch) :
    (s.drawDestination L).dmem = s.dmem.writeBytes L.regions.dst.base (drawn s.draws L.regions.dst.len) := rfl
@[simp] theorem State.drawDestination_fault (s : State) (L : Latch) :
    (s.drawDestination L).fault = s.fault := rfl
@[simp] theorem State.drawDestination_draws (s : State) (L : Latch) :
    (s.drawDestination L).draws = s.draws + L.regions.dst.len := rfl
@[simp] theorem State.drawDestination_inbox (s : State) (L : Latch) :
    (s.drawDestination L).inbox = s.inbox := rfl
@[simp] theorem State.drawDestination_response (s : State) (L : Latch) :
    (s.drawDestination L).response = s.response := rfl

/-! A hardware reset. -/

@[simp] theorem State.hwReset_regs (s : State) :
    (s.hwReset).regs = Regs.reset := rfl
@[simp] theorem State.hwReset_engine (s : State) :
    (s.hwReset).engine = .idle := rfl
@[simp] theorem State.hwReset_dmem (s : State) :
    (s.hwReset).dmem = s.dmem.reset := rfl
@[simp] theorem State.hwReset_fault (s : State) :
    (s.hwReset).fault = s.fault := rfl
@[simp] theorem State.hwReset_draws (s : State) :
    (s.hwReset).draws = s.draws := rfl
@[simp] theorem State.hwReset_inbox (s : State) :
    (s.hwReset).inbox = s.inbox := rfl
@[simp] theorem State.hwReset_response (s : State) :
    (s.hwReset).response = s.response := rfl

/-! A register write put next. -/

@[simp] theorem State.withWrite_regs (s : State) (off : Offset) (v : Word) :
    (s.withWrite off v).regs = s.regs := rfl
@[simp] theorem State.withWrite_engine (s : State) (off : Offset) (v : Word) :
    (s.withWrite off v).engine = s.engine := rfl
@[simp] theorem State.withWrite_dmem (s : State) (off : Offset) (v : Word) :
    (s.withWrite off v).dmem = s.dmem := rfl
@[simp] theorem State.withWrite_fault (s : State) (off : Offset) (v : Word) :
    (s.withWrite off v).fault = s.fault := rfl
@[simp] theorem State.withWrite_draws (s : State) (off : Offset) (v : Word) :
    (s.withWrite off v).draws = s.draws := rfl
@[simp] theorem State.withWrite_inbox (s : State) (off : Offset) (v : Word) :
    (s.withWrite off v).inbox = .host (.regWrite 4 off v) :: s.inbox := rfl
@[simp] theorem State.withWrite_response (s : State) (off : Offset) (v : Word) :
    (s.withWrite off v).response = s.response := rfl

end Sys2Proof.Machine
end

