-- ==== Sys2Proof/Laws/Ops.lean ====
section
/-! SUPPORT. One lemma for each shared operation that says everything it can do, and one for a step. -/

namespace Sys2Proof.Machine

/-! ## Issue (40_command_lifecycle.md R91, R103) -/

theorem State.issue_busy {s : State} {p : Pending} (h : s.engine = .busy p) (op : Op) (cont : Bool) (w : Word)
    (f : Latch → (Nat → Byte) → List Byte) : s.issue op cont w f = s.overrun := by
  simp only [State.issue, h]

theorem State.issue_error {s : State} {op : Op} {cont : Bool} {e : CommandError} (h : s.engine = .idle)
    (hv : validate s.dmem.size (latch op cont s.regs) = some e) (w : Word) (f : Latch → (Nat → Byte) → List Byte) :
    s.issue op cont w f = (s.storeCommand w).completeError (errCodeOf e.name) e.info := by
  simp only [State.issue, h, hv]

theorem State.issue_empty {s : State} {op : Op} {cont : Bool} (h : s.engine = .idle)
    (hv : validate s.dmem.size (latch op cont s.regs) = none) (hn : op = .nop ∨ s.regs.frameCount = 0#16) (w : Word)
    (f : Latch → (Nat → Byte) → List Byte) : s.issue op cont w f = (s.storeCommand w).completeEmpty := by
  simp only [State.issue, h, hv, latch_op, latch_n]
  exact if_pos hn

theorem State.issue_accept {s : State} {op : Op} {cont : Bool} (h : s.engine = .idle)
    (hv : validate s.dmem.size (latch op cont s.regs) = none) (ho : op ≠ .nop) (hn : s.regs.frameCount ≠ 0#16)
    (w : Word) (f : Latch → (Nat → Byte) → List Byte) :
    s.issue op cont w f = (s.storeCommand w).accept (latch op cont s.regs) (f (latch op cont s.regs) s.dmem.read) := by
  simp only [State.issue, h, hv, latch_op, latch_n]
  exact if_neg (not_or.2 ⟨ho, hn⟩)

/-- Everything an issue can do. -/
theorem State.issue_cases (s : State) (op : Op) (cont : Bool) (w : Word) (f : Latch → (Nat → Byte) → List Byte) :
    ((∃ p, s.engine = .busy p) ∧ s.issue op cont w f = s.overrun) ∨
    (s.engine = .idle ∧ ∃ e, validate s.dmem.size (latch op cont s.regs) = some e ∧
      s.issue op cont w f = (s.storeCommand w).completeError (errCodeOf e.name) e.info) ∨
    (s.engine = .idle ∧ s.issue op cont w f = (s.storeCommand w).completeEmpty) ∨
    (s.engine = .idle ∧ validate s.dmem.size (latch op cont s.regs) = none ∧ op ≠ .nop ∧ s.regs.frameCount ≠ 0#16 ∧
      s.issue op cont w f =
        (s.storeCommand w).accept (latch op cont s.regs) (f (latch op cont s.regs) s.dmem.read)) := by
  cases h : s.engine with
  | busy p => exact .inl ⟨⟨p, rfl⟩, State.issue_busy h ..⟩
  | idle =>
    cases hv : validate s.dmem.size (latch op cont s.regs) with
    | some e => exact .inr (.inl ⟨rfl, e, rfl, State.issue_error h hv ..⟩)
    | none =>
      by_cases ho : op = .nop
      · exact .inr (.inr (.inl ⟨rfl, State.issue_empty h hv (.inl ho) ..⟩))
      · by_cases hn : s.regs.frameCount = 0#16
        · exact .inr (.inr (.inl ⟨rfl, State.issue_empty h hv (.inr hn) ..⟩))
        · exact .inr (.inr (.inr ⟨rfl, rfl, ho, hn, State.issue_accept h hv ho hn ..⟩))

theorem State.issueIllegal_busy {s : State} {p : Pending} (h : s.engine = .busy p) (e : Illegal) (w : Word) :
    s.issueIllegal e w = s.overrun := by
  simp only [State.issueIllegal, h]

theorem State.issueIllegal_idle {s : State} (h : s.engine = .idle) (e : Illegal) (w : Word) :
    s.issueIllegal e w = (s.storeCommand w).completeError (errCodeOf (illegalName e)) w := by
  simp only [State.issueIllegal, h]

/-- ERR_CODE of an error is at most 5 (60_exceptions.md R145). -/
theorem errCodeOf_le (e : ErrName) : (errCodeOf e).toNat ≤ 5 := by cases e <;> decide

/-- What an issue leaves alone: DMEM, the fault record, the events to come, the answer and the draws. -/
theorem State.issue_dmem (s : State) (op : Op) (cont : Bool) (w : Word) (f : Latch → (Nat → Byte) → List Byte) :
    (s.issue op cont w f).dmem = s.dmem := by
  rcases State.issue_cases s op cont w f with ⟨_, e⟩ | ⟨_, _, _, e⟩ | ⟨_, e⟩ | ⟨_, _, _, _, e⟩ <;> rw [e] <;> simp

theorem State.issue_fault (s : State) (op : Op) (cont : Bool) (w : Word) (f : Latch → (Nat → Byte) → List Byte) :
    (s.issue op cont w f).fault = s.fault := by
  rcases State.issue_cases s op cont w f with ⟨_, e⟩ | ⟨_, _, _, e⟩ | ⟨_, e⟩ | ⟨_, _, _, _, e⟩ <;> rw [e] <;> simp

theorem State.issue_inbox (s : State) (op : Op) (cont : Bool) (w : Word) (f : Latch → (Nat → Byte) → List Byte) :
    (s.issue op cont w f).inbox = s.inbox := by
  rcases State.issue_cases s op cont w f with ⟨_, e⟩ | ⟨_, _, _, e⟩ | ⟨_, e⟩ | ⟨_, _, _, _, e⟩ <;> rw [e] <;> simp

theorem State.issueIllegal_dmem (s : State) (e : Illegal) (w : Word) : (s.issueIllegal e w).dmem = s.dmem := by
  unfold State.issueIllegal; split <;> rfl

theorem State.issueIllegal_fault (s : State) (e : Illegal) (w : Word) : (s.issueIllegal e w).fault = s.fault := by
  unfold State.issueIllegal; split <;> rfl

theorem State.issueIllegal_inbox (s : State) (e : Illegal) (w : Word) : (s.issueIllegal e w).inbox = s.inbox := by
  unfold State.issueIllegal; split <;> rfl

/-! ## Completion and resets -/

theorem State.engineStep_idle {s : State} (h : s.engine = .idle) : s.engineStep = s := by
  simp only [State.engineStep, h]

theorem State.engineStep_busy {s : State} {p : Pending} (h : s.engine = .busy p) :
    s.engineStep = { (s.storeOutput p).completeEmpty with engine := .idle } := by
  simp only [State.engineStep, h]

theorem State.storeOutput_clean {s : State} {p : Pending} (h : p.hazard = false) :
    s.storeOutput p = { s with dmem := s.dmem.writeBytes p.latch.dst.toNat p.out } := by
  simp only [State.storeOutput, h, Bool.false_eq_true, if_false]

theorem State.storeOutput_hazard {s : State} {p : Pending} (h : p.hazard = true) :
    s.storeOutput p = s.drawDestination p.latch := by
  simp only [State.storeOutput, h, if_true]

theorem State.softReset_idle {s : State} (h : s.engine = .idle) :
    s.softReset = { s with regs := Regs.reset } := by
  simp only [State.softReset, State.abort, h]

theorem State.softReset_busy {s : State} {p : Pending} (h : s.engine = .busy p) :
    s.softReset = { s.drawDestination p.latch with engine := .idle, regs := Regs.reset } := by
  simp only [State.softReset, State.abort, h]

/-- What either reset leaves in the registers and the engine (70_reset_and_hazards.md R164, R165). -/
@[simp] theorem State.softReset_regs (s : State) : s.softReset.regs = Regs.reset := rfl
@[simp] theorem State.softReset_engine (s : State) : s.softReset.engine = .idle := rfl

@[simp] theorem State.softReset_fault (s : State) : s.softReset.fault = s.fault := by
  cases h : s.engine with
  | idle => rw [State.softReset_idle h]
  | busy p => rw [State.softReset_busy h]; rfl

@[simp] theorem State.softReset_inbox (s : State) : s.softReset.inbox = s.inbox := by
  cases h : s.engine with
  | idle => rw [State.softReset_idle h]
  | busy p => rw [State.softReset_busy h]; rfl

@[simp] theorem State.engineStep_engine (s : State) : s.engineStep.engine = .idle := by
  cases h : s.engine with
  | idle => rw [State.engineStep_idle h, h]
  | busy p => rw [State.engineStep_busy h]

@[simp] theorem State.storeOutput_fault (s : State) (p : Pending) : (s.storeOutput p).fault = s.fault := by
  unfold State.storeOutput; split <;> rfl

@[simp] theorem State.storeOutput_inbox (s : State) (p : Pending) : (s.storeOutput p).inbox = s.inbox := by
  unfold State.storeOutput; split <;> rfl

@[simp] theorem State.storeOutput_regs (s : State) (p : Pending) : (s.storeOutput p).regs = s.regs := by
  unfold State.storeOutput; split <;> rfl

@[simp] theorem State.storeOutput_size (s : State) (p : Pending) : (s.storeOutput p).dmem.size = s.dmem.size := by
  unfold State.storeOutput; split <;> simp

@[simp] theorem State.engineStep_fault (s : State) : s.engineStep.fault = s.fault := by
  cases h : s.engine with
  | idle => rw [State.engineStep_idle h]
  | busy p => rw [State.engineStep_busy h]; simp

@[simp] theorem State.engineStep_inbox (s : State) : s.engineStep.inbox = s.inbox := by
  cases h : s.engine with
  | idle => rw [State.engineStep_idle h]
  | busy p => rw [State.engineStep_busy h]; simp

/-! ## Decoding of the legal words -/

/-- A decoded command has a row of the opcode map, and its meaning is the issue of that row. -/
theorem exec_command {i : Instr} (hi : i ≠ .softReset) :
    ∃ c ∈ commandTable, c.1 = i ∧ ∀ s, exec i s = .next (s.issue c.2.1 c.2.2.1 c.2.2.2 (outputOf c.2.1)) := by
  cases i with
  | nop => exact ⟨(.nop, .nop, false, 0#32), by simp [commandTable], rfl, fun _ => rfl⟩
  | cscFwd => exact ⟨(.cscFwd, .cscFwd, false, 1#32), by simp [commandTable], rfl, fun _ => rfl⟩
  | cscInv => exact ⟨(.cscInv, .cscInv, false, 2#32), by simp [commandTable], rfl, fun _ => rfl⟩
  | deltaFwd c =>
    cases c
    · exact ⟨(.deltaFwd false, .deltaFwd, false, 3#32), by simp [commandTable], rfl, fun _ => rfl⟩
    · exact ⟨(.deltaFwd true, .deltaFwd, true, 0x103#32), by simp [commandTable], rfl, fun _ => rfl⟩
  | deltaInv c =>
    cases c
    · exact ⟨(.deltaInv false, .deltaInv, false, 4#32), by simp [commandTable], rfl, fun _ => rfl⟩
    · exact ⟨(.deltaInv true, .deltaInv, true, 0x104#32), by simp [commandTable], rfl, fun _ => rfl⟩
  | softReset => exact absurd rfl hi

theorem exec_softReset (s : State) : exec .softReset s = .next s.softReset := rfl

/-! ## Well-formed transactions are the ones performed -/

theorem legalRegAccess_iff (n : Nat) (off : Offset) :
    legalRegAccess n off = true ↔ n = 4 ∧ off.toNat % 4 = 0 := by
  simp [legalRegAccess]

theorem wellFormed_regWrite (m n : Nat) (off : Offset) (v : Word) :
    (Transaction.regWrite n off v).wellFormed m = legalRegAccess n off := by
  simp [Transaction.wellFormed, legalRegAccess, Bool.decide_and, Nat.dvd_iff_mod_eq_zero, beq_eq_decide]

theorem wellFormed_regRead (m n : Nat) (off : Offset) :
    (Transaction.regRead n off).wellFormed m = legalRegAccess n off := by
  simp [Transaction.wellFormed, legalRegAccess, Bool.decide_and, Nat.dvd_iff_mod_eq_zero, beq_eq_decide]

theorem wellFormed_dmemWrite (m n : Nat) (a v : Word) :
    (Transaction.dmemWrite n a v).wellFormed m = legalDmemAccess m n a := by
  simp [Transaction.wellFormed, legalDmemAccess, Nat.dvd_iff_mod_eq_zero, beq_eq_decide, Bool.and_assoc,
    Bool.or_assoc, Bool.decide_and, Bool.decide_or]

theorem wellFormed_dmemRead (m n : Nat) (a : Word) :
    (Transaction.dmemRead n a).wellFormed m = legalDmemAccess m n a := by
  simp [Transaction.wellFormed, legalDmemAccess, Nat.dvd_iff_mod_eq_zero, beq_eq_decide, Bool.and_assoc,
    Bool.or_assoc, Bool.decide_and, Bool.decide_or]

/-! ## A step -/

/-- The state with the next event taken. -/
abbrev State.popped (s : State) : State := { s with inbox := s.inbox.tail }

theorem step_nil {s : State} (h : s.inbox = []) : step s = .next s.engineStep := by
  simp only [step, nextStep, h]

theorem step_cons {s : State} {e : Event} {rest : List Event} (h : s.inbox = e :: rest) :
    step s = eventStep e { s with inbox := rest } := by
  simp only [step, nextStep, h]

theorem decodeWrite_cmd (w : Word) : decodeWrite 0x00C#12 w = decodeCommand w := rfl

theorem decodeWrite_ctrl (w : Word) : decodeWrite 0x008#12 w = decodeControl w := rfl

/-- The offset a register stands at is the only one it is found at. -/
theorem regAt_eq_some {off : Offset} {r : RegName} (h : regAt off = some r) : off = regOffset r := by
  unfold regAt at h
  split at h <;> first | (cases h; apply BitVec.eq_of_toNat_eq; assumption) | cases h

theorem decodeCommand_not_softReset (w : Word) : decodeCommand w ≠ .instr .softReset := by
  unfold decodeCommand
  dsimp only
  split
  · simp
  · split
    · simp
    · unfold commandOf; split <;> simp

theorem decodeCommand_cases (w : Word) :
    (∃ i, i ≠ .softReset ∧ decodeCommand w = .instr i) ∨ ∃ e, decodeCommand w = .illegal e := by
  unfold decodeCommand
  dsimp only
  split
  · exact .inr ⟨_, rfl⟩
  · split
    · exact .inr ⟨_, rfl⟩
    · unfold commandOf
      split <;> first | exact .inr ⟨_, rfl⟩ | exact .inl ⟨_, by simp, rfl⟩

/-- Everything a step can do: the engine's turn, a reset, or one host transaction. -/
inductive StepCase (s : State) : State → Prop where
  | engine (h : s.inbox = [] ∨ s.inbox.head? = some .engine) : StepCase s s.popped.engineStep
  | hwReset (h : s.inbox.head? = some .hwReset) : StepCase s s.popped.hwReset
  | busError (x : Transaction) (h : s.inbox.head? = some (.host x)) (hx : x.wellFormed s.dmem.size = false) :
      StepCase s (s.popped.busError x)
  | command (c : Instr × Op × Bool × Word) (hc : c ∈ commandTable) (w : Word)
      (h : s.inbox.head? = some (.host (.regWrite 4 0x00C#12 w))) (hw : decodeCommand w = .instr c.1) :
      StepCase s ((s.popped.respond .written).issue c.2.1 c.2.2.1 c.2.2.2 (outputOf c.2.1))
  | illegal (e : Illegal) (w : Word) (h : s.inbox.head? = some (.host (.regWrite 4 0x00C#12 w)))
      (hw : decodeCommand w = .illegal e) : StepCase s ((s.popped.respond .written).issueIllegal e w)
  | softReset (v : Word) (h : s.inbox.head? = some (.host (.regWrite 4 0x008#12 v))) (hv : v.getLsbD 0 = true) :
      StepCase s (s.popped.respond .written).softReset
  | control (v : Word) (h : s.inbox.head? = some (.host (.regWrite 4 0x008#12 v))) (hv : v.getLsbD 0 = false) :
      StepCase s (s.popped.respond .written)
  | field (r : RegName) (v : Word) (h : s.inbox.head? = some (.host (.regWrite 4 (regOffset r) v)))
      (hc : r ≠ .cmd) (hk : r ≠ .ctrl) :
      StepCase s { s.popped.respond .written with regs := writeField s.regs r v }
  | reserved (off : Offset) (v : Word) (h : s.inbox.head? = some (.host (.regWrite 4 off v)))
      (ha : off.toNat % 4 = 0) (hr : regAt off = none) : StepCase s (s.popped.respond .written)
  | regRead (off : Offset) (h : s.inbox.head? = some (.host (.regRead 4 off)))
      (ha : off.toNat % 4 = 0) : StepCase s (s.popped.respond (.data (readOffset s off)))
  | dmemWrite (n : Nat) (a v : Word) (h : s.inbox.head? = some (.host (.dmemWrite n a v)))
      (hx : (Transaction.dmemWrite n a v).wellFormed s.dmem.size = true)
      (hm : ∀ p, s.engine = .busy p → p.latch.meets a.toNat n = false) :
      StepCase s ({ s.popped with dmem := s.dmem.writeBytes a.toNat (littleEndian n v) }.respond .written)
  | hazard (n : Nat) (a v : Word) (p : Pending) (h : s.inbox.head? = some (.host (.dmemWrite n a v)))
      (hx : (Transaction.dmemWrite n a v).wellFormed s.dmem.size = true) (he : s.engine = .busy p)
      (hm : p.latch.meets a.toNat n = true) :
      StepCase s (({ s.popped with dmem := s.dmem.writeBytes a.toNat (littleEndian n v) }.respond .written).hazard p
        (.dmemWrite n a v))
  | dmemRead (n : Nat) (a : Word) (h : s.inbox.head? = some (.host (.dmemRead n a)))
      (hx : (Transaction.dmemRead n a).wellFormed s.dmem.size = true) (v : Word) :
      StepCase s ({ s.popped with draws := s.draws + drawsOfRead s a.toNat n }.respond (.data v))

theorem mmioWrite_cases (s : State) (n : Nat) (off : Offset) (v : Word)
    (h : s.inbox.head? = some (.host (.regWrite n off v))) :
    ∃ t, mmioWrite n off v s.popped = .next t ∧ StepCase s t := by
  unfold mmioWrite
  split
  · rename_i hl
    obtain ⟨rfl, ha⟩ := (legalRegAccess_iff _ _).1 hl
    unfold decodeWrite
    cases hr : regAt off with
    | none =>
      refine ⟨s.popped.respond .written, ?_, .reserved off v h ha hr⟩
      simp only [State.writeRegister, hr]
    | some r =>
      have ho := regAt_eq_some hr
      by_cases hc : r = .cmd
      · subst hc; subst ho
        rcases decodeCommand_cases v with ⟨i, hi, hd⟩ | ⟨e, hd⟩
        · obtain ⟨c, hc, rfl, hx⟩ := exec_command hi
          refine ⟨_, ?_, .command c hc v h hd⟩
          simp only [hd]
          exact hx _
        · refine ⟨_, ?_, .illegal e v h hd⟩
          simp only [hd]
      · by_cases hk : r = .ctrl
        · subst hk; subst ho
          cases hb : v.getLsbD 0 with
          | true =>
            refine ⟨_, ?_, .softReset v h hb⟩
            simp only [decodeControl, hb, if_true]
            rfl
          | false =>
            refine ⟨_, ?_, .control v h hb⟩
            simp only [decodeControl, hb, Bool.false_eq_true, if_false, State.writeRegister, hr]
            rfl
        · subst ho
          refine ⟨_, ?_, .field r v h hc hk⟩
          cases r <;> first | exact absurd rfl hc | exact absurd rfl hk | rfl
  · rename_i hl
    exact ⟨_, rfl, .busError _ h (by rw [wellFormed_regWrite]; simpa using hl)⟩

theorem dmemWrite_cases (s : State) (n : Nat) (a v : Word) (h : s.inbox.head? = some (.host (.dmemWrite n a v))) :
    StepCase s (dmemWrite n a v s.popped) := by
  unfold dmemWrite
  split
  · rename_i hl
    have hx : (Transaction.dmemWrite n a v).wellFormed s.dmem.size = true := by rw [wellFormed_dmemWrite]; exact hl
    split
    · rename_i he
      exact .dmemWrite n a v h hx fun p hp => nomatch he.symm.trans hp
    · rename_i p he
      split
      · rename_i hm; exact .hazard n a v p h hx he hm
      · rename_i hm
        refine .dmemWrite n a v h hx fun q hq => ?_
        cases he.symm.trans hq
        simpa using hm
  · rename_i hl
    exact .busError _ h (by rw [wellFormed_dmemWrite]; simpa using hl)

/-- Every step answers a next state, and it is one of the cases. -/
theorem step_total (s : State) : ∃ t, step s = .next t ∧ StepCase s t := by
  cases h : s.inbox with
  | nil =>
    refine ⟨_, step_nil h, ?_⟩
    have hp : s.popped = s := by rw [State.popped, h]; obtain ⟨⟩ := s; simp_all
    have := StepCase.engine (s := s) (.inl h)
    rwa [hp] at this
  | cons e rest =>
    have hp : { s with inbox := rest } = s.popped := by rw [State.popped, h]; rfl
    have hh : s.inbox.head? = some e := by rw [h]; rfl
    rw [step_cons h, hp]
    cases e with
    | engine => exact ⟨_, rfl, .engine (.inr hh)⟩
    | hwReset => exact ⟨_, rfl, .hwReset hh⟩
    | host x =>
      cases x with
      | regWrite n off v => exact mmioWrite_cases s n off v hh
      | regRead n off =>
        refine ⟨_, rfl, ?_⟩
        unfold mmioRead
        split
        · rename_i hl
          obtain ⟨rfl, ha⟩ := (legalRegAccess_iff _ _).1 hl
          exact .regRead off hh ha
        · rename_i hl
          exact .busError _ hh (by rw [wellFormed_regRead]; simpa using hl)
      | dmemWrite n a v => exact ⟨_, rfl, dmemWrite_cases s n a v hh⟩
      | dmemRead n a =>
        refine ⟨_, rfl, ?_⟩
        unfold dmemRead
        split
        · rename_i hl
          exact .dmemRead n a hh (by rw [wellFormed_dmemRead]; exact hl) _
        · rename_i hl
          exact .busError _ hh (by rw [wellFormed_dmemRead]; simpa using hl)

/-- What a step that answers a next state did. -/
theorem step_case {s t : State} (h : step s = .next t) : StepCase s t := by
  obtain ⟨t', ht, hc⟩ := step_total s
  rw [ht] at h
  cases h
  exact hc

/-- A run of one step more. -/
theorem run_succ (M : Host.Core) (k : Nat) {a b : M.State} (h : M.step a = .next b) : M.run (k + 1) a = M.run k b := by
  rw [Host.Core.run, h]

end Sys2Proof.Machine
end

