-- ==== Sys2Proof/Laws/PerInstr.lean ====
section
/-! SUPPORT. What holds of each instruction as syntax: one lemma per constructor. -/

namespace Sys2Proof.Laws

/-- Each instruction is encoded in the format of its row of spec/opcode_table.json: a command as a CMD word whose
fields are well-formed (30_encoding.md R72, R73), the soft reset as a CTRL value with bit 0 = 1 (R80). -/
def Format.Statement (i : Instr) : Prop :=
  ((encode i).1 = 0x00C#12 ∧ (commandFields (encode i).2).wellFormed = true ∧ i ≠ .softReset) ∨
  ((encode i).1 = 0x008#12 ∧ (encode i).2.getLsbD 0 = true ∧ i = .softReset)

theorem Format.nop : Format.Statement .nop := .inl (by decide)

theorem Format.cscFwd : Format.Statement .cscFwd := .inl (by decide)

theorem Format.cscInv : Format.Statement .cscInv := .inl (by decide)

theorem Format.deltaFwd (cont : Bool) : Format.Statement (.deltaFwd cont) := .inl (by cases cont <;> decide)

theorem Format.deltaInv (cont : Bool) : Format.Statement (.deltaInv cont) := .inl (by cases cont <;> decide)

theorem Format.softReset : Format.Statement .softReset := .inr (by decide)

end Sys2Proof.Laws
end

