-- ==== Sys2Proof/Laws/Validation.lean ====
section
/-! SUPPORT. What each check of validation can answer, in terms of the operand registers. -/

namespace Sys2Proof.Machine

/-- A row of the opcode map is its issue. -/
theorem exec_row {c : Instr × Op × Bool × Word} (hc : c ∈ commandTable) (s : State) :
    exec c.1 s = .next (s.issue c.2.1 c.2.2.1 c.2.2.2 (outputOf c.2.1)) := by
  simp only [commandTable, List.mem_cons, List.not_mem_nil, or_false] at hc
  rcases hc with rfl|rfl|rfl|rfl|rfl|rfl|rfl <;> rfl

/-- What the rows of the data commands have in common. -/
theorem data_row {c : Instr × Op × Bool × Word} (hc : c ∈ dataCommands) :
    c ∈ commandTable ∧ c.2.1 ≠ .nop ∧ (c.2.2.1 = true → IsDelta c.2.1) ∧ decodeCommand c.2.2.2 = .instr c.1 := by
  simp only [dataCommands, commandTable, List.tail_cons, List.mem_cons, List.not_mem_nil, or_false] at hc
  rcases hc with rfl|rfl|rfl|rfl|rfl|rfl <;> refine ⟨by simp [commandTable], by decide, by simp [IsDelta], by decide⟩

/-- The dimension check is the legality of the dimension (10_state.md R30). -/
theorem badDimension_iff (x : BitVec 16) : badDimension x = false ↔ GoodDim x := by
  simp [badDimension, GoodDim]

/-- No dimension error exactly when both dimensions are legal (40_command_lifecycle.md R92). -/
theorem dimensionInfo_eq_zero (L : Latch) : dimensionInfo L = 0 ↔ GoodDim L.w ∧ GoodDim L.h := by
  unfold dimensionInfo
  rw [← badDimension_iff, ← badDimension_iff]
  cases badDimension L.w <;> cases badDimension L.h <;> simp

/-- The source region in terms of the registers (40_command_lifecycle.md R93). -/
theorem latch_src_region (op : Op) (cont : Bool) (r : Regs) (h : op ≠ .nop) : (latch op cont r).regions.src = ⟨r.srcAddr.toNat, srcLen op r⟩ := by
  cases op <;> first | exact absurd rfl h | rfl

/-- The destination region in terms of the registers (40_command_lifecycle.md R93). -/
theorem latch_dst_region (op : Op) (cont : Bool) (r : Regs) (h : op ≠ .nop) : (latch op cont r).regions.dst = ⟨r.dstAddr.toNat, dstLen op r⟩ := by
  cases op <;> first | exact absurd rfl h | rfl

/-- The reference region in terms of the registers (40_command_lifecycle.md R93). -/
theorem latch_ref_region (op : Op) (cont : Bool) (r : Regs) (h : op ≠ .nop) (hd : cont = true → IsDelta op) :
   (latch op cont r).regions.ref.len = refLen cont r ∧ (0 < refLen cont r → (latch op cont r).regions.ref.base = r.refAddr.toNat) := by
  cases op with
  | nop => exact absurd rfl h
  | cscFwd => cases cont <;> simp [IsDelta] at hd; simp [Latch.regions, refLen]
  | cscInv => cases cont <;> simp [IsDelta] at hd; simp [Latch.regions, refLen]
  | deltaFwd =>
    show (latch .deltaFwd cont r).refRegion.len = _ ∧ (_ → (latch .deltaFwd cont r).refRegion.base = _)
    by_cases hc : cont = true ∧ r.frameCount ≠ 0#16
    · rw [show (latch .deltaFwd cont r).refRegion = ⟨r.refAddr.toNat, r.width.toNat * r.height.toNat * 3 / 2⟩ from if_pos hc, refLen, if_pos hc]; exact ⟨rfl, fun _ => rfl⟩
    · rw [show (latch .deltaFwd cont r).refRegion = .none from if_neg hc, refLen, if_neg hc]; exact ⟨rfl, fun h => absurd h (by simp)⟩
  | deltaInv =>
    show (latch .deltaInv cont r).refRegion.len = _ ∧ (_ → (latch .deltaInv cont r).refRegion.base = _)
    by_cases hc : cont = true ∧ r.frameCount ≠ 0#16
    · rw [show (latch .deltaInv cont r).refRegion = ⟨r.refAddr.toNat, r.width.toNat * r.height.toNat * 3 / 2⟩ from if_pos hc, refLen, if_pos hc]; exact ⟨rfl, fun _ => rfl⟩
    · rw [show (latch .deltaInv cont r).refRegion = .none from if_neg hc, refLen, if_neg hc]; exact ⟨rfl, fun h => absurd h (by simp)⟩

/-- Everything the range check can answer (40_command_lifecycle.md R94). -/
theorem rangeInfo_latch (m : Nat) (op cont r) (h : op ≠ Op.nop) (hd : cont = true → IsDelta op) :
   rangeInfo m (latch op cont r) = if 0 < srcLen op r ∧ m < r.srcAddr.toNat + srcLen op r then some 0
     else if 0 < dstLen op r ∧ m < r.dstAddr.toNat + dstLen op r then some 1
     else if 0 < refLen cont r ∧ m < r.refAddr.toNat + refLen cont r then some 2 else none := by
  have h3 := latch_ref_region op cont r h hd
  unfold rangeInfo Region.outOfRange
  rw [latch_src_region op cont r h, latch_dst_region op cont r h, h3.1]
  by_cases hr : 0 < refLen cont r
  · rw [h3.2 hr]; simp
  · simp [hr]

/-- Everything the overlap check can answer (40_command_lifecycle.md R95). -/
theorem overlapInfo_latch (op cont r) (h : op ≠ Op.nop) (hd : cont = true → IsDelta op) [Decidable (SrcDstConflict op r)] [Decidable (RefDstConflict op cont r)] :
   overlapInfo (latch op cont r) = if SrcDstConflict op r then some 0 else if RefDstConflict op cont r then some 1 else none := by
  have h1 := latch_src_region op cont r h
  have h2 := latch_dst_region op cont r h
  have h3 := latch_ref_region op cont r h hd
  have hsd : (latch op cont r).regions.src.overlaps (latch op cont r).regions.dst = true ↔ Meet r.srcAddr.toNat (srcLen op r) r.dstAddr.toNat (dstLen op r) := by
    rw [h1, h2]; simp [Region.overlaps, Meet]
  have hrd : (latch op cont r).regions.ref.overlaps (latch op cont r).regions.dst = true ↔ RefDstConflict op cont r := by
    rw [h2]; simp only [Region.overlaps, RefDstConflict, Meet, decide_eq_true_eq, h3.1]
    by_cases hr : 0 < refLen cont r
    · rw [h3.2 hr]
    · simp [hr]
  have hb : (latch op cont r).regions.src.base ≠ (latch op cont r).regions.dst.base ↔ r.srcAddr ≠ r.dstAddr := by
    rw [h1, h2]; simp [BitVec.toNat_inj]
  unfold overlapInfo
  cases op with
  | nop => exact absurd rfl h
  | cscFwd =>
    have : cont = false := by cases cont <;> simp [IsDelta] at hd; rfl
    subst this
    have hno : ¬ RefDstConflict .cscFwd false r := by simp [RefDstConflict, Meet, refLen]
    have hs : SrcDstConflict .cscFwd r ↔ Meet r.srcAddr.toNat (srcLen .cscFwd r) r.dstAddr.toNat (dstLen .cscFwd r) := by simp [SrcDstConflict, IsDelta]
    rw [if_neg hno]
    exact if_congr (hsd.trans hs.symm) rfl rfl
  | cscInv =>
    have : cont = false := by cases cont <;> simp [IsDelta] at hd; rfl
    subst this
    have hno : ¬ RefDstConflict .cscInv false r := by simp [RefDstConflict, Meet, refLen]
    have hs : SrcDstConflict .cscInv r ↔ Meet r.srcAddr.toNat (srcLen .cscInv r) r.dstAddr.toNat (dstLen .cscInv r) := by simp [SrcDstConflict, IsDelta]
    rw [if_neg hno]
    exact if_congr (hsd.trans hs.symm) rfl rfl
  | deltaFwd =>
    refine if_congr ?_ rfl (if_congr hrd rfl rfl)
    rw [Bool.and_eq_true, hsd, bne_iff_ne, hb]; simp [SrcDstConflict, IsDelta]
  | deltaInv =>
    refine if_congr ?_ rfl (if_congr hrd rfl rfl)
    rw [Bool.and_eq_true, hsd, bne_iff_ne, hb]; simp [SrcDstConflict, IsDelta]

/-- The range check passes exactly when every region is in range. -/
theorem inRange_iff (m op cont r) (h : op ≠ Op.nop) (hd : cont = true → IsDelta op) : InRange m op cont r ↔ rangeInfo m (latch op cont r) = none := by
  rw [rangeInfo_latch m op cont r h hd]
  unfold InRange
  constructor
  · rintro ⟨a, b, c⟩
    rw [if_neg (by omega), if_neg (by omega), if_neg (by omega)]
  · intro h
    split at h
    · cases h
    · split at h
      · cases h
      · split at h
        · cases h
        · omega

open Classical in
/-- Validation passes exactly the good operands (40_command_lifecycle.md R92). -/
theorem goodOperands_iff (m op cont r) (h : op ≠ Op.nop) (hd : cont = true → IsDelta op) : GoodOperands m op cont r ↔ validate m (latch op cont r) = none := by
  unfold validate GoodOperands
  rw [if_neg (by simpa using h), inRange_iff m op cont r h hd, overlapInfo_latch op cont r h hd]
  have := dimensionInfo_eq_zero (latch op cont r)
  simp only [latch_w, latch_h] at this
  by_cases hdm : dimensionInfo (latch op cont r) = 0
  · rw [if_neg (by simpa using hdm)]
    have hg := this.1 hdm
    cases hr : rangeInfo m (latch op cont r) with
    | some k => simp
    | none =>
      by_cases a : SrcDstConflict op r
      · simp [a]
      · by_cases b : RefDstConflict op cont r <;> simp [a, b, hg]
  · rw [if_pos (by simpa using hdm)]
    simp only [reduceCtorEq, iff_false]
    rintro ⟨a, b, _⟩
    exact hdm (this.2 ⟨a, b⟩)

end Sys2Proof.Machine
end

