-- ==== Sys2Proof/Tests/Slice0.lean ====
section
/-! SUPPORT. Tests against the vectors of spec/95_test_vectors.md, and a witness for the hypotheses of every statement
that has some. -/

namespace Sys2Proof.Tests

open Sys2Proof.Machine

/-! ## Small states, with MEM_BYTES = 256 as in 95_test_vectors.md -/

/-- The base operands of 95_test_vectors.md section 6: W = H = 2, N = 1, SRC 0x00, DST 0x40, REF 0x80. -/
def baseRegs : Regs :=
  { Regs.reset with width := 2#16, height := 2#16, frameCount := 1#16, dstAddr := 0x40#32, refAddr := 0x80#32 }

/-- An Idle block with the base operands. -/
def base : State := { State.resetWith 256 with regs := baseRegs }

/-- The base block with the given operands and with bytes in DMEM from address 0. -/
def block (w h n : BitVec 16) (src dst ref : Word) (bytes : List Byte) : State :=
  { base with
    regs := { baseRegs with width := w, height := h, frameCount := n, srcAddr := src, dstAddr := dst, refAddr := ref }
    dmem := base.dmem.writeBytes 0 bytes }

/-- A block with one event to come. -/
def State.given (s : State) (e : Event) : State := { s with inbox := [e] }

/-- The block Busy with CSC_FWD of V-F1, nothing written in DMEM but the source. -/
def busyBlock : State :=
  { base with
    regs := { baseRegs with cmd := 1#32 }
    engine := .busy { latch := latch .cscFwd false baseRegs, out := [123, 123, 123, 123, 83, 111], hazard := false }
    dmem := base.dmem.writeBytes 0 [100, 150, 50, 100, 150, 50, 100, 150, 50, 100, 150, 50] }

/-- What DMEM holds at an address after a command word and the completion, or nothing where the run stopped. -/
def bytesAfter (s : State) (w a n : Nat) : List Byte :=
  match Host.Core.run core 2 (s.withFetchWord 32 w) with
  | .next t => t.dmem.readBytes a n
  | .fault _ => []
  | .refused _ => []

/-- A function of the next state, or nothing where the step stopped. -/
def seen {α : Type} (o : Host.Outcome State Fault Refusal) (f : State → α) : Option α :=
  match o with
  | .next t => some (f t)
  | .fault _ => none
  | .refused _ => none

/-- Memory contents given as a list from address 0. -/
def listed (bytes : List Byte) (a : Nat) : Byte := bytes.getD a 0

/-! ## Well-formedness: one ill-formed term for each check -/

theorem test_wellFormed_accepts :
    (CommandFields.mk 4#8 true 0#23).wellFormed = true ∧ (Transaction.regWrite 4 0xFFC#12 0#32).wellFormed 256 = true ∧
    (Transaction.dmemWrite 2 0xFE#32 0#32).wellFormed 256 = true := by decide

theorem test_wellFormed_refuses_opcode : (CommandFields.mk 5#8 false 0#23).wellFormed = false := by decide

theorem test_wellFormed_refuses_rsvd : (CommandFields.mk 3#8 false 1#23).wellFormed = false := by decide

theorem test_wellFormed_refuses_cont : (CommandFields.mk 2#8 true 0#23).wellFormed = false := by decide

theorem test_wellFormed_refuses_register_width :
    (Transaction.regWrite 2 0x024#12 1#32).wellFormed 256 = false := by decide

theorem test_wellFormed_refuses_register_alignment :
    (Transaction.regRead 4 0x026#12).wellFormed 256 = false := by decide

theorem test_wellFormed_refuses_dmem_width :
    (Transaction.dmemWrite 3 0x20#32 0#32).wellFormed 256 = false := by decide

theorem test_wellFormed_refuses_dmem_alignment :
    (Transaction.dmemWrite 2 0x11#32 0xABCD#32).wellFormed 256 = false := by decide

theorem test_wellFormed_refuses_dmem_past_the_end :
    (Transaction.dmemRead 1 0x100#32).wellFormed 256 = false := by decide

/-! ## Decoding: words written bit by bit from 30_encoding.md R72, R73, R80 (RSVD, CONT, OPCODE) -/

theorem test_decode_nop : decodeWrite 0x00C#12 0b00000000000000000000000_0_00000000#32 = .instr .nop := by decide

theorem test_decode_cscFwd : decodeWrite 0x00C#12 0b00000000000000000000000_0_00000001#32 = .instr .cscFwd := by decide

theorem test_decode_cscInv : decodeWrite 0x00C#12 0b00000000000000000000000_0_00000010#32 = .instr .cscInv := by decide

theorem test_decode_deltaFwd :
    decodeWrite 0x00C#12 0b00000000000000000000000_0_00000011#32 = .instr (.deltaFwd false) ∧
    decodeWrite 0x00C#12 0b00000000000000000000000_1_00000011#32 = .instr (.deltaFwd true) := by decide

theorem test_decode_deltaInv :
    decodeWrite 0x00C#12 0b00000000000000000000000_0_00000100#32 = .instr (.deltaInv false) ∧
    decodeWrite 0x00C#12 0b00000000000000000000000_1_00000100#32 = .instr (.deltaInv true) := by decide

theorem test_decode_softReset :
    decodeWrite 0x008#12 0b0000000000000000000000000000000_1#32 = .instr .softReset ∧
    decodeWrite 0x008#12 0b1111111111111111111111111111111_1#32 = .instr .softReset ∧
    decodeWrite 0x008#12 0b0000000000000000000000000000001_0#32 = .noInstr := by decide

/-- 95_test_vectors.md section 5: the rejected words, each with its disassembly. -/
theorem test_decode_illegal :
    decodeCommand 0x00000005#32 = .illegal .opcode ∧ decodeCommand 0x00000205#32 = .illegal .opcode ∧
    decodeCommand 0xFFFFFFFF#32 = .illegal .opcode ∧ decodeCommand 0x00000100#32 = .illegal .rsvd ∧
    decodeCommand 0x00000102#32 = .illegal .rsvd ∧ decodeCommand 0x00000200#32 = .illegal .rsvd ∧
    decodeCommand 0x80000003#32 = .illegal .rsvd := by decide

theorem test_disassembly :
    disassemble 0x00000103#32 = "DELTA_FWD.cont" ∧
    disassemble 0x000000FF#32 = ".word 0x000000FF ; illegal: E_OPCODE" ∧
    disassemble 0x80000003#32 = ".word 0x80000003 ; illegal: E_RSVD" := by decide

/-! ## Commands -/

/-- V-T5: IRQ_STATUS 1 and ERR_CODE 0 right after reset. -/
theorem test_nop_after_reset :
    seen (exec .nop (State.resetWith 256)) (fun t => (t.regs.irqStatus, t.regs.errCode, t.busy)) =
      some (1#3, 0x00#8, false) := by decide

/-- V-R9, V-R11: written while Busy it is an overrun, and CMD keeps the word of the command in flight. -/
theorem test_nop_while_busy :
    seen (exec .nop busyBlock) (fun t => (t.regs.irqStatus, t.regs.cmd, t.busy)) = some (4#3, 1#32, true) := by decide

/-- V-F2, one frame of distinct pixels. -/
theorem test_cscFwd_distinct_pixels :
    bytesAfter (block 2 2 1 0 0x40 0 [255, 0, 0, 0, 255, 0, 0, 0, 255, 255, 255, 255]) 1 0x40 6 =
      [76, 149, 29, 255, 121, 127] := by decide

/-- V-F3, two blocks side by side. -/
theorem test_cscFwd_two_blocks :
    bytesAfter (block 4 2 1 0 0x40 0 [100, 150, 50, 100, 150, 50, 0, 0, 255, 255, 0, 0,
      100, 150, 50, 100, 150, 50, 0, 255, 0, 255, 255, 255]) 1 0x40 12 =
      [123, 123, 29, 76, 123, 123, 149, 255, 83, 121, 111, 127] := by decide

/-- V-I1, the inverse of the source's uniform example. -/
theorem test_cscInv_uniform :
    bytesAfter (block 2 2 1 0 0x40 0 [123, 123, 123, 123, 83, 111]) 2 0x40 12 =
      [99, 150, 43, 99, 150, 43, 99, 150, 43, 99, 150, 43] := by decide

/-- V-I3, a frame no forward transform makes, with clamped channels. -/
theorem test_cscInv_clamped :
    bytesAfter (block 4 2 1 0 0x40 0 [0, 255, 128, 64, 200, 10, 50, 250, 128, 0, 128, 255]) 2 0x40 24 =
      [0, 0, 0, 255, 255, 255, 255, 81, 0, 242, 17, 0, 200, 200, 200, 10, 10, 10, 228, 3, 0, 255, 203, 23] := by decide

/-- V-D6, in place, against the original frame before it. -/
theorem test_deltaFwd_in_place :
    bytesAfter (block 2 2 3 0 0 0 [10, 20, 30, 40, 50, 60, 5, 20, 31, 40, 50, 0, 255, 0, 31, 41, 50, 1]) 3 0 18 =
      [10, 20, 30, 40, 50, 60, 251, 0, 1, 0, 0, 196, 250, 236, 0, 1, 0, 1] := by decide

/-- V-D7, continued from the frame at REF_ADDR. -/
theorem test_deltaFwd_cont :
    bytesAfter (block 2 2 2 6 0x40 0 [10, 20, 30, 40, 50, 60, 5, 20, 31, 40, 50, 0, 255, 0, 31, 41, 50, 1]) 0x103 0x40 12 =
      [251, 0, 1, 0, 0, 196, 250, 236, 0, 1, 0, 1] := by decide

/-- V-D4, two frames. -/
theorem test_deltaInv_two_frames :
    bytesAfter (block 2 2 2 0 0x40 0 [10, 20, 30, 40, 50, 60, 251, 0, 1, 0, 0, 196]) 4 0x40 12 =
      [10, 20, 30, 40, 50, 60, 5, 20, 31, 40, 50, 0] := by decide

/-- V-D7, continued from the reconstructed frame at REF_ADDR. -/
theorem test_deltaInv_cont :
    bytesAfter (block 2 2 2 6 0x40 0 [10, 20, 30, 40, 50, 60, 251, 0, 1, 0, 0, 196, 250, 236, 0, 1, 0, 1])
      0x104 0x40 12 = [5, 20, 31, 40, 50, 0, 255, 0, 31, 41, 50, 1] := by decide

/-- V-T3: registers reset, DMEM unchanged. -/
theorem test_softReset_while_idle :
    seen (exec .softReset (block 2 2 1 0 0x40 0 [7])) (fun t => (t.regs.width, t.dmem.readBytes 0 1)) =
      some (0#16, [7]) := by decide

/-- V-T2: the command is aborted with no DONE, and the source is unchanged. -/
theorem test_softReset_while_busy :
    seen (exec .softReset busyBlock) (fun t => (t.busy, t.regs.irqStatus, t.regs.width, t.dmem.readBytes 0 3)) =
      some (false, 0#3, 0#16, [100, 150, 50]) := by decide

/-! ## Validation (95_test_vectors.md section 6) -/

/-- The error code and information word of a command on operands given as in the table's rows. -/
def checked (op : Op) (cont : Bool) (w h n : BitVec 16) (src dst ref : Word) : Option (BitVec 8 × Word) :=
  (validate 256 (latch op cont (block w h n src dst ref []).regs)).map fun e => (errCodeOf e.name, e.info)

/-- X9–X13: dimensions. -/
theorem test_validate_dimensions :
    checked .cscFwd false 3 2 1 0 0x40 0x80 = some (3, 1) ∧ checked .cscFwd false 2 0 1 0 0x40 0x80 = some (3, 2) ∧
    checked .cscFwd false 0 5 1 0 0x40 0x80 = some (3, 3) ∧ checked .cscFwd false 3 2 0 0 0x40 0x80 = some (3, 1) ∧
    checked .nop false 3 2 1 0 0x40 0x80 = none := by decide

/-- X15–X22, X31–X33: ranges. -/
theorem test_validate_ranges :
    checked .cscFwd false 2 2 1 250 0x40 0x80 = some (4, 0) ∧ checked .cscFwd false 2 2 1 0 0xFC 0x80 = some (4, 1) ∧
    checked .cscFwd false 2 2 1 250 0xFC 0x80 = some (4, 0) ∧ checked .deltaFwd true 2 2 1 0 0x40 0xFC = some (4, 2) ∧
    checked .deltaFwd false 2 2 1 0 0x40 0xFC = none ∧ checked .deltaFwd true 2 2 0 0 0x40 0xFC = none ∧
    checked .cscFwd false 2 2 1 0xFFFFFFF0 0x40 0x80 = some (4, 0) ∧ checked .cscFwd false 2 2 1 0xF4 0x40 0x80 = none ∧
    checked .cscFwd false 2 2 1 0xF8 0xF8 0x80 = some (4, 0) ∧
    checked .cscFwd false 0xFFFE 0xFFFE 0xFFFF 0 0x40 0x80 = some (4, 0) ∧
    checked .cscFwd false 2 2 0 0xFFFFFFFF 0xFFFFFFFF 0x80 = none := by decide

/-- X23–X30, X34–X36: overlaps. -/
theorem test_validate_overlaps :
    checked .cscFwd false 2 2 1 0 0x0B 0x80 = some (5, 0) ∧ checked .cscFwd false 2 2 1 0 0x0C 0x80 = none ∧
    checked .cscInv false 2 2 1 0x40 0x40 0x80 = some (5, 0) ∧ checked .deltaFwd false 2 2 1 0x40 0x40 0x80 = none ∧
    checked .deltaFwd false 2 2 1 0x40 0x41 0x80 = some (5, 0) ∧ checked .deltaFwd true 2 2 1 0x40 0x60 0x40 = none ∧
    checked .deltaFwd true 2 2 1 0x40 0x60 0x62 = some (5, 1) ∧ checked .deltaInv true 2 2 1 0x40 0x40 0x44 = some (5, 1) ∧
    checked .deltaInv false 2 2 1 0x40 0x40 0x80 = none ∧ checked .deltaInv true 2 2 2 0x40 0x40 0x4C = none ∧
    checked .deltaInv true 2 2 2 0x40 0x40 0x4B = some (5, 1) := by decide

/-! ## Registers, DMEM and faults (95_test_vectors.md section 7) -/

/-- V-R2, V-R6: the field's bits are stored; only bits 2 to 0 of an acknowledge act. -/
theorem test_register_writes :
    seen (step (State.given (State.resetWith 256) (.host (.regWrite 4 0x024#12 0x00010002#32)))) (·.regs.width) =
      some 2#16 ∧
    (writeField { Regs.reset with irqStatus := 7#3 } .irqStatus 0xFFFFFFF8#32).irqStatus = 7#3 ∧
    (writeField { Regs.reset with irqStatus := 3#3 } .irqStatus 0x1#32).irqStatus = 2#3 := by decide

/-- V-R1, V-R3: constants, and a reserved offset. -/
theorem test_register_reads :
    readOffset (State.resetWith 256) 0x000#12 = 0x43533432#32 ∧ readOffset (State.resetWith 256) 0x03C#12 = 256#32 ∧
    readOffset busyBlock 0x010#12 = 1#32 ∧ readOffset base 0x040#12 = 0#32 := by decide

/-- V-R7, V-R8: the interrupt line. -/
theorem test_irq :
    ({ base with regs := { baseRegs with irqStatus := 2#3, irqEnable := 2#3 } } : State).irq = true ∧
    ({ base with regs := { baseRegs with irqStatus := 2#3, irqEnable := 5#3 } } : State).irq = false := by decide

/-- The placement of the window and of DMEM, whatever the bases are. -/
theorem test_platform_placement :
    platformAddress (.regWrite 4 0x00C#12 1#32) = Config.regBase + 0x00C ∧
    platformAddress (.dmemRead 2 0xFE#32) = Config.dmemBase + 0xFE := ⟨rfl, rfl⟩

/-- V-M1: the least significant byte lies lowest. -/
theorem test_dmem_word_is_little_endian :
    seen (step (State.given base (.host (.dmemWrite 4 0x10#32 0x11223344#32)))) (·.dmem.readBytes 0x10 4) =
      some [0x44, 0x33, 0x22, 0x11] := by decide

/-- V-M3: a misaligned write gets the bus error, changes no byte, and is recorded. -/
theorem test_misaligned_write_is_a_bus_error :
    seen (step (State.given (block 2 2 1 0 0x40 0 [7]) (.host (.dmemWrite 2 0x11#32 0xABCD#32))))
      (fun t => (t.response, t.fault, t.dmem.cells)) =
      some (some .busError, some (.busFault (.dmemWrite 2 0x11#32 0xABCD#32)), [(0, 7)]) := by decide

/-- V-M7, V-M8: a write beside the regions of the command in flight, and one into its source. -/
theorem test_writes_while_busy :
    seen (step (State.given busyBlock (.host (.dmemWrite 1 0x20#32 7#32)))) (fun t => (t.fault, t.dmem.read 0x20)) =
      some (none, 7#8) ∧
    seen (step (State.given busyBlock (.host (.dmemWrite 1 0x05#32 7#32)))) (fun t => (t.fault, t.dmem.read 0x05)) =
      some (some (.hazardFault (.dmemWrite 1 0x05#32 7#32)), 7#8) := by decide

/-! ## Witnesses: concrete states and operands that meet the hypotheses of each statement -/

theorem witness_DecodeAndEncodeAgree :
    decodeCommand 0x00000103#32 = .instr (.deltaFwd true) ∧ decodeWrite 0x008#12 0x00000003#32 = .instr .softReset := by
  decide

theorem witness_ControlBitZeroIsTheSoftResetTrigger :
    (State.given base (.host (.regWrite 4 0x008#12 0xFFFFFFFF#32))).inbox =
      .host (.regWrite 4 0x008#12 0xFFFFFFFF#32) :: [] ∧
    (0xFFFFFFFF#32).toNat % 2 = 1 ∧ (0xFFFFFFFE#32).toNat % 2 = 0 := by decide

theorem witness_DisassemblyOfLegalWordsIsInvertible :
    decodeCommand 0x00000104#32 = .instr (.deltaInv true) ∧ ∀ i, decodeCommand 0x00000105#32 ≠ .instr i :=
  ⟨by decide, by
    have h : decodeCommand 0x00000105#32 = .illegal .opcode := by decide
    rw [h]
    exact fun _ => nofun⟩

theorem witness_StepRunsTheDecodedInstruction :
    (State.given base (.host (.regWrite 4 0x00C#12 1#32))).inbox = .host (.regWrite 4 0x00C#12 1#32) :: [] ∧
    decodeWrite 0x00C#12 1#32 = .instr .cscFwd ∧ decodeCommand 1#32 = .instr .cscFwd := by decide

theorem witness_NopCompletesAtIssue : base.engine = .idle := by decide

theorem witness_EmptyDataCommandCompletesAtIssue :
    (.cscFwd, .cscFwd, false, 1#32) ∈ dataCommands ∧
    (let s := block 2 0xFFFE 0 0xFFFFFFFF 0xFFFFFFFF 0 []
     s.engine = .idle ∧ GoodDim s.regs.width ∧ GoodDim s.regs.height ∧ s.regs.frameCount = 0#16) := by
  unfold GoodDim; decide

/-- At the boundary: opcode 5 with and without a reserved bit; opcode 4 with a reserved bit; opcode 2 with CONT. -/
theorem witness_IllegalWordCompletesWithItsError :
    (∀ w ∈ [0x05#32, 0x205#32, 0x204#32, 0x102#32],
      let s := State.given base (.host (.regWrite 4 0x00C#12 w))
      s.inbox = .host (.regWrite 4 0x00C#12 w) :: [] ∧ s.engine = .idle) ∧
    0x05 ≤ (0x05#32).toNat % 256 ∧ 0x05 ≤ (0x205#32).toNat % 256 ∧
    ((0x204#32).toNat % 256 < 0x05 ∧ (0x204#32).toNat / 512 ≠ 0) ∧
    ((0x102#32).toNat % 256 < 0x05 ∧ (0x102#32).toNat / 256 % 2 = 1 ∧ (0x102#32).toNat % 256 ≤ 0x02) :=
  ⟨fun _ _ => ⟨rfl, rfl⟩, by decide, by decide, by decide, by decide⟩

/-- W odd, H zero, and the largest value, which is odd. -/
theorem witness_BadDimensionIsReportedFirst :
    (.deltaInv true, .deltaInv, true, 0x104#32) ∈ dataCommands ∧
    ∀ s ∈ [block 3 2 1 0 0x40 0 [], block 2 0 1 0 0x40 0 [], block 0xFFFF 0xFFFF 0 0 0 0 []],
      s.engine = .idle ∧ ¬ (GoodDim s.regs.width ∧ GoodDim s.regs.height) := by
  unfold GoodDim; decide

/-- One operand set for each region, its last byte just past MEM_BYTES. -/
theorem witness_RangeErrorNamesTheFirstBadRegion :
    (.deltaFwd true, .deltaFwd, true, 0x103#32) ∈ dataCommands ∧
    ∀ s ∈ [block 2 2 1 251 0x40 0x80 [], block 2 2 1 0 251 0x80 [], block 2 2 1 0 0x40 251 []],
      s.engine = .idle ∧ GoodDim s.regs.width ∧ GoodDim s.regs.height ∧
      ¬ InRange s.dmem.size .deltaFwd true s.regs := by
  unfold InRange GoodDim; decide

/-- X23 and X27 for SRC with DST, X29 for REF with DST. -/
theorem witness_OverlapErrorNamesTheRegions :
    (.cscFwd, .cscFwd, false, 1#32) ∈ dataCommands ∧ (.deltaFwd true, .deltaFwd, true, 0x103#32) ∈ dataCommands ∧
    (let s := block 2 2 1 0 0x0B 0x80 []
     s.engine = .idle ∧ GoodDim s.regs.width ∧ GoodDim s.regs.height ∧
       InRange s.dmem.size .cscFwd false s.regs ∧ SrcDstConflict .cscFwd s.regs) ∧
    (let s := block 2 2 1 0x40 0x41 0x80 []
     s.engine = .idle ∧ GoodDim s.regs.width ∧ GoodDim s.regs.height ∧
       InRange s.dmem.size .deltaFwd true s.regs ∧ SrcDstConflict .deltaFwd s.regs) ∧
    (let s := block 2 2 1 0x40 0x60 0x62 []
     s.engine = .idle ∧ GoodDim s.regs.width ∧ GoodDim s.regs.height ∧
       InRange s.dmem.size .deltaFwd true s.regs ∧ ¬ SrcDstConflict .deltaFwd s.regs ∧
       RefDstConflict .deltaFwd true s.regs) := by
  unfold InRange SrcDstConflict RefDstConflict Meet IsDelta GoodDim
  refine ⟨?_, ?_, ?_, ?_, ?_⟩ <;> decide

theorem witness_CommandWriteWhileBusyIsAnOverrun :
    let s := State.given busyBlock (.host (.regWrite 4 0x00C#12 0x205#32))
    s.inbox = .host (.regWrite 4 0x00C#12 0x205#32) :: [] ∧ ∃ p, s.engine = .busy p := ⟨rfl, _, rfl⟩

/-- The base operands pass every check of all six data commands. -/
theorem witness_GoodDataCommandIsAccepted :
    base.engine = .idle ∧ base.inbox = [] ∧ base.regs.frameCount ≠ 0#16 ∧
    ∀ c ∈ dataCommands, GoodOperands base.dmem.size c.2.1 c.2.2.1 base.regs := by
  unfold GoodOperands GoodDim InRange SrcDstConflict RefDstConflict Meet IsDelta; decide

/-- The same hypotheses at the boundary: X22, a source that ends at MEM_BYTES, and X26, in place. -/
theorem witness_DataCommandReachesMemory :
    (.cscFwd, .cscFwd, false, 1#32) ∈ dataCommands ∧ (.deltaFwd false, .deltaFwd, false, 3#32) ∈ dataCommands ∧
    (let s := block 2 2 1 0xF4 0x40 0 []
     s.engine = .idle ∧ s.inbox = [] ∧ s.regs.frameCount ≠ 0#16 ∧ GoodOperands s.dmem.size .cscFwd false s.regs) ∧
    (let s := block 2 2 1 0x40 0x40 0 []
     s.engine = .idle ∧ s.inbox = [] ∧ s.regs.frameCount ≠ 0#16 ∧ GoodOperands s.dmem.size .deltaFwd false s.regs) := by
  unfold GoodOperands GoodDim InRange SrcDstConflict RefDstConflict Meet IsDelta
  refine ⟨?_, ?_, ?_, ?_⟩ <;> decide

theorem witness_CompletionStoresTheOutput :
    ∃ p, busyBlock.engine = .busy p ∧ p.hazard = false ∧ p.latch.dst.toNat + p.out.length ≤ busyBlock.dmem.size ∧
      busyBlock.inbox = [] ∧ (State.given busyBlock .engine).inbox.head? = some .engine :=
  ⟨_, rfl, by decide, by decide, by decide, by decide⟩

/-- The latch and the first and last pixel and block for the byte statements of both colour commands. -/
theorem witness_colour_bytes :
    (let L := latch .cscFwd false (block 4 2 2 0 0x40 0 []).regs
     GoodDim L.w ∧ GoodDim L.h ∧ 1 < L.n.toNat ∧ 1 < L.h.toNat ∧ 3 < L.w.toNat ∧ 0 < L.h.toNat / 2 ∧
       1 < L.w.toNat / 2) := by
  unfold GoodDim; decide

/-- Two memories that agree on pixel (0, 0) and its block of a 4 × 2 frame and differ elsewhere. -/
theorem witness_CscFwdIsLaneWise :
    let L := latch .cscFwd false (block 4 2 1 0 0x40 0 []).regs
    GoodDim L.w ∧ GoodDim L.h ∧ 0 < L.n.toNat ∧ 0 < L.h.toNat ∧ 0 < L.w.toNat ∧
    (∀ dr < 2, ∀ dc < 2, ∀ k < 3, listed [1, 2, 3] (L.src.toNat + 3 * (dr * 4 + dc) + k) =
      listed [1, 2, 3, 0, 0, 0, 9, 9, 9] (L.src.toNat + 3 * (dr * 4 + dc) + k)) ∧
    listed [1, 2, 3] 6 ≠ listed [1, 2, 3, 0, 0, 0, 9, 9, 9] 6 := by unfold GoodDim; decide

/-- Two memories that agree on pixel (0, 0) of a 2 × 2 planar frame and its chroma, and differ at pixel (0, 1). -/
theorem witness_CscInvIsLaneWise :
    let L := latch .cscInv false (block 2 2 1 0 0x40 0 []).regs
    let M := listed [5, 1, 0, 0, 8, 9]
    let M' := listed [5, 2, 0, 0, 8, 9]
    GoodDim L.w ∧ GoodDim L.h ∧ 0 < L.n.toNat ∧ 0 < L.h.toNat ∧ 0 < L.w.toNat ∧
    M (L.src.toNat + 0) = M' (L.src.toNat + 0) ∧ M (L.src.toNat + 4) = M' (L.src.toNat + 4) ∧
    M (L.src.toNat + 5) = M' (L.src.toNat + 5) ∧ M 1 ≠ M' 1 := by
  unfold GoodDim; decide

/-- Frames 0 and 1 and the last byte of a 2 × 2 frame, with CONT = 0 and with CONT = 1. -/
theorem witness_delta_bytes :
    (let L := latch .deltaFwd false (block 2 2 2 0 0x40 0x80 []).regs
     1 < L.n.toNat ∧ 5 < L.w.toNat * L.h.toNat * 3 / 2 ∧ L.cont = false) ∧
    (latch .deltaFwd true baseRegs).cont = true := by decide

/-- V-D7: the deltas of two frames against a reference, read back at their own address with that reference. -/
theorem witness_DeltaInverseLaw :
    let L := latch .deltaFwd true (block 2 2 2 6 0x40 0 []).regs
    let L' := latch .deltaInv true (block 2 2 2 6 0x40 0 []).regs
    let M := listed [10, 20, 30, 40, 50, 60, 5, 20, 31, 40, 50, 0, 255, 0, 31, 41, 50, 1]
    let M' := listed [10, 20, 30, 40, 50, 60, 251, 0, 1, 0, 0, 196, 250, 236, 0, 1, 0, 1]
    L'.w = L.w ∧ L'.h = L.h ∧ L'.n = L.n ∧ L'.cont = L.cont ∧
    (∀ k (h : k < (fDeltaFwd L M).length), M' (L'.src.toNat + k) = (fDeltaFwd L M)[k]) ∧
    (L.cont = true → ∀ j < L.w.toNat * L.h.toNat * 3 / 2, M' (L'.ref.toNat + j) = M (L.ref.toNat + j)) := by decide

/-- V-D6 and V-D7: three frames in one command, or one and then two; the second command over the same memory, and over
another in which its frames and a copy of the reference stand elsewhere. -/
theorem witness_SplitForwardDeltaEqualsWhole :
    let L := latch .deltaFwd false (block 2 2 3 0 0x40 0 []).regs
    let L1 := latch .deltaFwd false (block 2 2 1 0 0x50 0 []).regs
    let L2 := latch .deltaFwd true (block 2 2 2 6 0x12 0 []).regs
    let M := listed [10, 20, 30, 40, 50, 60, 5, 20, 31, 40, 50, 0, 255, 0, 31, 41, 50, 1]
    let M' := listed [9, 9, 9, 9, 9, 9, 10, 20, 30, 40, 50, 60, 5, 20, 31, 40, 50, 0, 255, 0, 31, 41, 50, 1]
    let L2' := latch .deltaFwd true (block 2 2 2 12 0x40 6 []).regs
    let LP := L.w.toNat * L.h.toNat * 3 / 2
    1 ≤ L1.n.toNat ∧ L.n.toNat = L1.n.toNat + L2.n.toNat ∧ L.n.toNat = L1.n.toNat + L2'.n.toNat ∧
    L1 = { L with n := L1.n, dst := L1.dst } ∧ L1.dst ≠ L.dst ∧
    (L2.w = L.w ∧ L2.h = L.h ∧ L2.cont = true ∧
      (∀ k < L2.n.toNat * LP, M (L2.src.toNat + k) = M (L.src.toNat + L1.n.toNat * LP + k)) ∧
      (∀ j < LP, M (L2.ref.toNat + j) = M (L.src.toNat + (L1.n.toNat - 1) * LP + j))) ∧
    (L2'.w = L.w ∧ L2'.h = L.h ∧ L2'.cont = true ∧
      (∀ k < L2'.n.toNat * LP, M' (L2'.src.toNat + k) = M (L.src.toNat + L1.n.toNat * LP + k)) ∧
      (∀ j < LP, M' (L2'.ref.toNat + j) = M (L.src.toNat + (L1.n.toNat - 1) * LP + j))) := by decide

/-- V-D5 and V-D7: the first command's output stands at 0x12 when the second one starts. -/
theorem witness_SplitInverseDeltaEqualsWhole :
    let L := latch .deltaInv false (block 2 2 3 0 0x12 0 []).regs
    let L1 := latch .deltaInv false (block 2 2 1 0 0x12 0 []).regs
    let L2 := latch .deltaInv true (block 2 2 2 6 0x18 0x12 []).regs
    let M := listed [10, 20, 30, 40, 50, 60, 251, 0, 1, 0, 0, 196, 250, 236, 0, 1, 0, 1]
    let M' := listed [10, 20, 30, 40, 50, 60, 251, 0, 1, 0, 0, 196, 250, 236, 0, 1, 0, 1, 10, 20, 30, 40, 50, 60]
    let LP := L.w.toNat * L.h.toNat * 3 / 2
    1 ≤ L1.n.toNat ∧ L.n.toNat = L1.n.toNat + L2.n.toNat ∧ L1 = { L with n := L1.n, dst := L1.dst } ∧ L2.w = L.w ∧ L2.h = L.h ∧
    L2.cont = true ∧ (∀ k < L2.n.toNat * LP, M' (L2.src.toNat + k) = M (L.src.toNat + L1.n.toNat * LP + k)) ∧
    (∀ j < LP, (fDeltaInv L1 M)[(L1.n.toNat - 1) * LP + j]? = some (M' (L2.ref.toNat + j))) := by decide

/-- Two memories that agree at offset 0 of both frames and of the reference, and differ at offset 1. -/
theorem witness_DeltaIsLaneWise :
    let L := latch .deltaFwd true (block 2 2 2 6 0x40 0 []).regs
    let LP := L.w.toNat * L.h.toNat * 3 / 2
    0 < L.n.toNat ∧ 0 < LP ∧
    (∀ t < L.n.toNat, listed [4, 1] (L.src.toNat + t * LP + 0) = listed [4, 2] (L.src.toNat + t * LP + 0)) ∧
    listed [4, 1] (L.ref.toNat + 0) = listed [4, 2] (L.ref.toNat + 0) ∧
    listed [4, 1] (L.ref.toNat + 1) ≠ listed [4, 2] (L.ref.toNat + 1) := by decide

theorem witness_SoftResetAbortsTheCommand :
    ∃ p, busyBlock.engine = .busy p ∧ p.latch.regions.dst.contains 0x3F = false ∧
      p.latch.regions.dst.contains 0x46 = false ∧ 5 < p.latch.regions.dst.len ∧
      p.latch.regions.dst.base + 5 < busyBlock.dmem.size := ⟨_, rfl, by decide, by decide, by decide, by decide⟩

theorem witness_HardwareResetLeavesTheResetState :
    (State.given busyBlock .hwReset).inbox = .hwReset :: [] := by decide

/-- A block that is not fresh from reset, but whose dimensions still are 0. -/
theorem witness_FirstCommandAfterReset :
    let s := block 0 0 1 0 0x40 0 [1]
    s.engine = .idle ∧ s.regs.width = 0#16 ∧ s.regs.height = 0#16 := by decide

/-- A named offset and the last reserved one, both aligned and none of the three constants. -/
theorem witness_ResetStateReadsTheTabulatedValues :
    ∀ off ∈ [0x008#12, 0xFFC#12], off.toNat % 4 = 0 ∧ off ≠ 0x000#12 ∧ off ≠ 0x004#12 ∧ off ≠ 0x03C#12 := by decide

/-- The first, the last and a reserved offset of the window. -/
theorem witness_register_offsets :
    (0x000#12).toNat % 4 = 0 ∧ (0xFFC#12).toNat % 4 = 0 ∧ (0x040#12).toNat ≠ 0x008 ∧ (0x040#12).toNat ≠ 0x00C ∧
    (State.given base (.host (.regRead 4 0xFFC#12))).inbox = .host (.regRead 4 0xFFC#12) :: [] ∧
    (State.given base (.host (.regWrite 4 0x040#12 5#32))).inbox = .host (.regWrite 4 0x040#12 5#32) :: [] := by decide

/-- The last word of the address space, and a misaligned register. -/
theorem witness_IllegalTransactionIsABusError :
    ∀ x ∈ [Transaction.dmemRead 4 0xFFFFFFFC#32, .regRead 4 0x026#12],
      let s := State.given base (.host x)
      s.inbox = .host x :: [] ∧ x.wellFormed s.dmem.size = false := by decide

/-- The last word of DMEM, at an Idle engine; and a byte beside the regions of a command in flight. -/
theorem witness_DmemWriteStoresLittleEndian :
    (let s := State.given base (.host (.dmemWrite 4 0xFC#32 0#32))
     s.inbox = .host (.dmemWrite 4 0xFC#32 0#32) :: [] ∧
       (Transaction.dmemWrite 4 0xFC#32 0#32).wellFormed s.dmem.size = true ∧ ∀ p, s.engine ≠ .busy p) ∧
    (let s := State.given busyBlock (.host (.dmemWrite 1 0x46#32 7#32))
     s.inbox = .host (.dmemWrite 1 0x46#32 7#32) :: [] ∧
       (Transaction.dmemWrite 1 0x46#32 7#32).wellFormed s.dmem.size = true ∧
       ∃ p, s.engine = .busy p ∧ p.latch.meets 0x46 1 = false) :=
  ⟨⟨rfl, by decide, fun _ => nofun⟩, rfl, by decide, _, rfl, by decide⟩

/-- The last byte of the source, and a word that begins at the first byte of the destination. -/
theorem witness_HazardousWriteIsPerformedAndRecorded :
    (let s := State.given busyBlock (.host (.dmemWrite 1 0x0B#32 7#32))
     s.inbox = .host (.dmemWrite 1 0x0B#32 7#32) :: [] ∧
       (Transaction.dmemWrite 1 0x0B#32 7#32).wellFormed s.dmem.size = true ∧
       ∃ p, s.engine = .busy p ∧ p.latch.meets 0x0B 1 = true) ∧
    (let s := State.given busyBlock (.host (.dmemWrite 4 0x40#32 7#32))
     s.inbox = .host (.dmemWrite 4 0x40#32 7#32) :: [] ∧
       (Transaction.dmemWrite 4 0x40#32 7#32).wellFormed s.dmem.size = true ∧
       ∃ p, s.engine = .busy p ∧ p.latch.meets 0x40 4 = true) :=
  ⟨⟨rfl, by decide, _, rfl, by decide⟩, rfl, by decide, _, rfl, by decide⟩

theorem witness_MeetingARegionIsSharingAByte :
    Op.deltaInv ≠ .nop ∧ IsDelta .deltaInv ∧ (latch .deltaInv true baseRegs).meets 0x85 1 = true ∧
    (latch .deltaInv true baseRegs).meets 0x86 1 = false := by unfold IsDelta; decide

/-- A read that meets the destination in flight at its last byte, and one just past it. -/
theorem witness_DmemReadAnswersLittleEndian :
    (let s := State.given busyBlock (.host (.dmemRead 2 0x44#32))
     s.inbox = .host (.dmemRead 2 0x44#32) :: [] ∧ (Transaction.dmemRead 2 0x44#32).wellFormed s.dmem.size = true ∧
       ∃ p, s.engine = .busy p ∧ p.latch.regions.dst.contains (0x44 + 1) = true) ∧
    (let s := State.given busyBlock (.host (.dmemRead 2 0x46#32))
     s.inbox = .host (.dmemRead 2 0x46#32) :: [] ∧ (Transaction.dmemRead 2 0x46#32).wellFormed s.dmem.size = true ∧
       ∃ p, s.engine = .busy p ∧ ∀ k < 2, p.latch.regions.dst.contains (0x46 + k) = false) :=
  ⟨⟨rfl, by decide, _, rfl, by decide⟩, rfl, by decide, _, rfl, by decide⟩

theorem witness_DmemReadAfterWriteReturnsTheValue :
    let s : State := { base with
      inbox := [.host (.dmemWrite 2 0xFE#32 0x1234ABCD#32), .host (.dmemRead 2 0xFE#32)] }
    s.engine = .idle ∧ (Transaction.dmemWrite 2 0xFE#32 0x1234ABCD#32).wellFormed s.dmem.size = true ∧
    s.inbox = [.host (.dmemWrite 2 0xFE#32 0x1234ABCD#32), .host (.dmemRead 2 0xFE#32)] := by decide

/-- The invariant holds of a Busy block that no run from this one's reset has reached, and it can step. -/
theorem witness_EveryStepKeepsTheInvariant : busyBlock.Inv ∧ ∃ t, step busyBlock = .next t :=
  ⟨⟨by decide, by decide, by decide, by decide⟩, _, rfl⟩

/-- A hardware reset of a faulted block. -/
theorem witness_FaultRecordIsNeverCleared :
    let s := State.given { busyBlock with fault := some (.busFault (.regRead 1 0#12)) } .hwReset
    s.fault = some (.busFault (.regRead 1 0#12)) ∧ ∃ t, step s = .next t := ⟨rfl, _, rfl⟩

/-- A clean state that becomes faulted, by each of the two ways. -/
theorem witness_OnlyForbiddenActionsFault :
    busyBlock.fault = none ∧
    seen (step (State.given busyBlock (.host (.dmemWrite 1 0x40#32 7#32)))) (·.fault.isSome) = some true ∧
    seen (step (State.given base (.host (.dmemRead 3 0#32)))) (·.fault.isSome) = some true := by decide

/-- A Busy block that stays Busy, through a write of an operand register. -/
theorem witness_CommandInFlightIsKept :
    ∃ t p q, step (State.given busyBlock (.host (.regWrite 4 0x024#12 4#32))) = .next t ∧
      (State.given busyBlock (.host (.regWrite 4 0x024#12 4#32))).engine = .busy p ∧ t.engine = .busy q :=
  ⟨_, _, _, rfl, rfl, rfl⟩

/-- A Busy block that becomes Idle: by completion, by a soft reset, by a hardware reset. -/
theorem witness_AcceptedCommandEndsInSuccessOrReset :
    seen (step busyBlock) (·.busy) = some false ∧
    seen (step (State.given busyBlock (.host (.regWrite 4 0x008#12 1#32)))) (·.busy) = some false ∧
    seen (step (State.given busyBlock .hwReset)) (·.busy) = some false := by decide

/-- DONE cleared by an acknowledge. -/
theorem witness_StatusBitsAreSticky :
    let s := State.given { base with regs := { baseRegs with irqStatus := 1#3 } } (.host (.regWrite 4 0x014#12 7#32))
    s.regs.irqStatus.getLsbD 0 = true ∧ seen (step s) (·.regs.irqStatus.getLsbD 0) = some false := by decide

/-- A byte of a state with the invariant that a step changes. -/
theorem witness_DmemChangesOnlyWhereAllowed :
    let s := State.given (block 2 2 1 0 0x40 0 [1]) (.host (.dmemWrite 1 0#32 7#32))
    s.Inv ∧ s.dmem.read 0 = 1#8 ∧ seen (step s) (·.dmem.read 0) = some 7#8 :=
  ⟨⟨by decide, by decide, by decide, by decide⟩, by decide, by decide⟩

/-- A block whose command in flight has met a host write. -/
theorem witness_CompletionAfterAHazardIsUnspecified :
    ∃ t p, step (State.given busyBlock (.host (.dmemWrite 1 0x05#32 7#32))) = .next t ∧ t.engine = .busy p ∧
      p.hazard = true ∧ t.inbox = [] ∧ 5 < p.latch.regions.dst.len ∧ p.latch.regions.dst.base + 5 < t.dmem.size :=
  ⟨_, _, rfl, rfl, by decide, by decide, by decide, by decide⟩

end Sys2Proof.Tests
end

section
/-! PROOFS. Scope (00_scope.md): no state of the block is stuck. -/

namespace Sys2Proof.Machine

/-- Every instruction answers a next state: a command by its issue, the soft reset by the reset registers. -/
theorem exec_total (i : Instr) (s : State) : ∃ t, exec i s = .next t := by
  by_cases hi : i = .softReset
  · exact ⟨s.softReset, by rw [hi, exec_softReset]⟩
  · obtain ⟨c, -, -, hc⟩ := exec_command hi
    exact ⟨_, hc s⟩

/-- Settles O50: a step answers a next state by the case analysis of `step_total`, an instruction by `exec_total`. -/
theorem noStateIsStuck : Obligations.NoStateIsStuck := by
  intro s
  obtain ⟨t, ht, -⟩ := step_total s
  exact ⟨⟨t, ht⟩, fun i => exec_total i s⟩

end Sys2Proof.Machine
end

section
/-! PROOFS. State (10_state.md): the interrupt line, the fault record, the command in flight, the sticky status bits
and the values after reset. -/

namespace Sys2Proof.Machine

/-! ## The interrupt line (R41) -/

/-- A bit vector differs from 0 exactly when one of its bits is 1. -/
theorem ne_zero_iff_exists_bit {n : Nat} (x : BitVec n) : x ≠ 0#n ↔ ∃ k < n, x.getLsbD k = true := by
  constructor
  · intro hx
    have hb : x.getLsbD x.ctz.toNat = true := BitVec.getLsbD_true_ctz_of_ne_zero hx
    exact ⟨_, BitVec.lt_of_getLsbD hb, hb⟩
  · rintro ⟨k, -, hb⟩ rfl
    simp at hb

/-- Settles O41: the level is the test for 0 of the AND, read bit by bit. -/
theorem irqIsTheEnabledOr : Obligations.IrqIsTheEnabledOr := by
  intro s
  rw [State.irq, bne_iff_ne, ne_zero_iff_exists_bit]
  simp only [BitVec.getLsbD_and, Bool.and_eq_true]

/-! ## The fault record (R44) -/

/-- The record after a step is the record before it, or one new fault where there was none. -/
theorem StepCase.fault_eq_or {s t : State} (hc : StepCase s t) : ∃ g, t.fault = s.fault.or g := by
  cases hc with
  | busError x _ _ => exact ⟨some (.busFault x), rfl⟩
  | hazard n a v p _ _ _ _ => exact ⟨some (.hazardFault (.dmemWrite n a v)), rfl⟩
  | engine _ => exact ⟨none, by simp⟩
  | hwReset _ => exact ⟨none, by simp⟩
  | command c _ w _ _ => exact ⟨none, by simp [State.issue_fault]⟩
  | illegal e w _ _ => exact ⟨none, by simp [State.issueIllegal_fault]⟩
  | softReset v _ _ => exact ⟨none, by simp⟩
  | control v _ _ => exact ⟨none, by simp⟩
  | field r v _ _ _ => exact ⟨none, by simp⟩
  | reserved off v _ _ _ => exact ⟨none, by simp⟩
  | regRead off _ _ => exact ⟨none, by simp⟩
  | dmemWrite n a v _ _ _ => exact ⟨none, by simp⟩
  | dmemRead n a _ _ v => exact ⟨none, by simp⟩

/-- Settles O51: a fault that stands is the first choice of the record after every step. -/
theorem faultRecordIsNeverCleared : Obligations.FaultRecordIsNeverCleared := by
  intro s t f hstep hf
  obtain ⟨g, hg⟩ := (step_case hstep).fault_eq_or
  rw [hg, hf, Option.some_or]

/-! ## The command in flight (R39, R40) -/

/-- What a step can make of a command in flight: end it, keep it, or mark it. -/
theorem StepCase.engine_of_busy {s t : State} {p : Pending} (hc : StepCase s t) (he : s.engine = .busy p) :
    t.engine = .idle ∨ t.engine = .busy p ∨ t.engine = .busy { p with hazard := true } := by
  have hp : (s.popped.respond .written).engine = .busy p := he
  cases hc with
  | engine _ => exact .inl (State.engineStep_engine _)
  | hwReset _ => exact .inl rfl
  | softReset v _ _ => exact .inl rfl
  | command c _ w _ _ => rw [State.issue_busy hp]; exact .inr (.inl he)
  | illegal e w _ _ => rw [State.issueIllegal_busy hp]; exact .inr (.inl he)
  | hazard n a v q _ _ hq _ =>
    cases he.symm.trans hq
    exact .inr (.inr rfl)
  | busError x _ _ => exact .inr (.inl he)
  | control v _ _ => exact .inr (.inl he)
  | field r v _ _ _ => exact .inr (.inl he)
  | reserved off v _ _ _ => exact .inr (.inl he)
  | regRead off _ _ => exact .inr (.inl he)
  | dmemWrite n a v _ _ _ => exact .inr (.inl he)
  | dmemRead n a _ _ v => exact .inr (.inl he)

/-- Settles O53: a command that is still in flight was kept or marked, and the mark touches neither field. -/
theorem commandInFlightIsKept : Obligations.CommandInFlightIsKept := by
  intro s t p q hstep hp hq
  rcases (step_case hstep).engine_of_busy hp with h | h | h <;> cases hq.symm.trans h <;> exact ⟨rfl, rfl⟩

/-! ## The sticky status bits (R26) -/

theorem raiseFlag_keeps {status : BitVec 3} {k : Nat} (flag : BitVec 3) (hk : status.getLsbD k = true) :
    (raiseFlag flag status).getLsbD k = true := by
  rw [raiseFlag, BitVec.getLsbD_or, hk, Bool.true_or]

/-- An acknowledge clears a bit only where the written value has a 1. -/
theorem bit_of_acknowledge_cleared {status : BitVec 3} {k : Nat} {v : Word} (hk : status.getLsbD k = true)
    (hc : (acknowledge status v).getLsbD k = false) : v.getLsbD k = true := by
  have hlt : k < 3 := BitVec.lt_of_getLsbD hk
  simpa [acknowledge, flagBits, hk, hlt] using hc

/-- Only a write to IRQ_STATUS itself acts on it (R26, R87). -/
theorem writeField_irqStatus_of_ne {r : RegName} (hr : r ≠ .irqStatus) (regs : Regs) (v : Word) :
    (writeField regs r v).irqStatus = regs.irqStatus := by
  cases r with
  | irqStatus => exact absurd rfl hr
  | _ => rfl

/-- An issue raises at most one flag: OVERRUN, ERR or DONE. -/
theorem State.issue_keeps_status {s : State} {k : Nat} (hk : s.regs.irqStatus.getLsbD k = true) (op : Op)
    (cont : Bool) (w : Word) (f : Latch → (Nat → Byte) → List Byte) :
    (s.issue op cont w f).regs.irqStatus.getLsbD k = true := by
  rcases State.issue_cases s op cont w f with ⟨-, h⟩ | ⟨-, e, -, h⟩ | ⟨-, h⟩ | ⟨-, -, -, -, h⟩ <;> rw [h]
  · exact raiseFlag_keeps flagOverrun hk
  · exact raiseFlag_keeps flagErr hk
  · exact raiseFlag_keeps flagDone hk
  · exact hk

theorem State.issueIllegal_keeps_status {s : State} {k : Nat} (hk : s.regs.irqStatus.getLsbD k = true) (e : Illegal)
    (w : Word) : (s.issueIllegal e w).regs.irqStatus.getLsbD k = true := by
  cases h : s.engine with
  | idle => rw [State.issueIllegal_idle h]; exact raiseFlag_keeps flagErr hk
  | busy p => rw [State.issueIllegal_busy h]; exact raiseFlag_keeps flagOverrun hk

theorem State.engineStep_keeps_status {s : State} {k : Nat} (hk : s.regs.irqStatus.getLsbD k = true) :
    s.engineStep.regs.irqStatus.getLsbD k = true := by
  cases h : s.engine with
  | idle => rwa [State.engineStep_idle h]
  | busy p =>
    rw [State.engineStep_busy h]
    exact raiseFlag_keeps flagDone (by rwa [State.storeOutput_regs])

/-- What a step can make of a status bit that is 1: keep it, acknowledge it, or reset it. -/
theorem StepCase.status_bit {s t : State} {k : Nat} (hc : StepCase s t) (hs : s.regs.irqStatus.getLsbD k = true) :
    t.regs.irqStatus.getLsbD k = true ∨
    (∃ v : Word, s.inbox.head? = some (.host (.regWrite 4 0x014#12 v)) ∧
      t.regs.irqStatus = acknowledge s.regs.irqStatus v) ∨
    (∃ v : Word, s.inbox.head? = some (.host (.regWrite 4 0x008#12 v)) ∧ v.getLsbD 0 = true) ∨
    s.inbox.head? = some .hwReset := by
  have hp : s.popped.regs.irqStatus.getLsbD k = true := hs
  have ha : (s.popped.respond .written).regs.irqStatus.getLsbD k = true := hs
  cases hc with
  | hwReset h => exact .inr (.inr (.inr h))
  | softReset v h hv => exact .inr (.inr (.inl ⟨v, h, hv⟩))
  | field r v h _ _ =>
    by_cases hr : r = .irqStatus
    · subst hr
      exact .inr (.inl ⟨v, h, rfl⟩)
    · exact .inl ((congrArg (·.getLsbD k) (writeField_irqStatus_of_ne hr s.regs v)).trans hs)
  | engine _ => exact .inl (State.engineStep_keeps_status hp)
  | command c _ w _ _ => exact .inl (State.issue_keeps_status ha ..)
  | illegal e w _ _ => exact .inl (State.issueIllegal_keeps_status ha e w)
  | busError x _ _ => exact .inl hs
  | control v _ _ => exact .inl hs
  | reserved off v _ _ _ => exact .inl hs
  | regRead off _ _ => exact .inl hs
  | dmemWrite n a v _ _ _ => exact .inl hs
  | hazard n a v p _ _ _ _ => exact .inl hs
  | dmemRead n a _ _ v => exact .inl hs

/-- Settles O55: an acknowledge clears only the bits written with a 1, and else only a reset clears. -/
theorem statusBitsAreSticky : Obligations.StatusBitsAreSticky := by
  intro s t k hstep hs ht
  rcases (step_case hstep).status_bit hs with hkept | ⟨v, h, hack⟩ | hsoft | hhard
  · exact absurd hkept (Bool.eq_false_iff.1 ht)
  · exact .inl ⟨v, h, bit_of_acknowledge_cleared hs (hack ▸ ht)⟩
  · exact .inr (.inl hsoft)
  · exact .inr (.inr hhard)

/-! ## The values after reset (R17, R166) -/

/-- Every register but the three constants reads 0 in the reset state. -/
theorem readRegister_reset {r : RegName} (hi : r ≠ .id) (hv : r ≠ .version) (hm : r ≠ .memSize) :
    readRegister State.reset r = 0#32 := by
  cases r with
  | id => exact absurd rfl hi
  | version => exact absurd rfl hv
  | memSize => exact absurd rfl hm
  | _ => rfl

/-- Settles O37: an offset reads 0 because it is reserved, or because its register is none of the constants. -/
theorem resetStateReadsTheTabulatedValues : Obligations.ResetStateReadsTheTabulatedValues := by
  refine ⟨rfl, rfl, rfl, fun off _ hi hv hm => ?_, rfl, rfl, rfl⟩
  unfold readOffset
  cases hr : regAt off with
  | none => rfl
  | some r =>
    have ho : off = regOffset r := regAt_eq_some hr
    refine readRegister_reset ?_ ?_ ?_ <;> rintro rfl
    · exact hi ho
    · exact hv ho
    · exact hm ho

end Sys2Proof.Machine
end

section
/-! PROOFS. Memory (20_memory.md): a read after a write, which steps change a byte, and the invariant every step
keeps. -/

namespace Sys2Proof.Machine

/-! ## The command in flight (R98, R102) -/

theorem Engine.sound_busy_iff (memBytes : Nat) (p : Pending) :
    (Engine.busy p).sound memBytes = true ↔
      p.latch.op ≠ .nop ∧ p.latch.n ≠ 0#16 ∧ validate memBytes p.latch = none ∧
        p.out.length = p.latch.regions.dst.len := by
  simp [Engine.sound, and_assoc]

/-- The output of a data command has one byte for each byte of its destination. -/
theorem outputOf_length {L : Latch} (h : L.op ≠ .nop) (M : Nat → Byte) :
    (outputOf L.op L M).length = L.regions.dst.len := by
  unfold Latch.regions
  cases ho : L.op with
  | nop => exact absurd ho h
  | cscFwd => exact fCscFwd_length L M
  | cscInv => exact fCscInv_length L M
  | deltaFwd => exact fDeltaFwd_length L M
  | deltaInv => exact fDeltaInv_length L M

/-- What a step can make of an idle engine: leave it idle, or take a validated command with its output. -/
theorem StepCase.engine_of_idle {s t : State} (hc : StepCase s t) (he : s.engine = .idle) :
    t.engine = .idle ∨
    ∃ op cont, validate s.dmem.size (latch op cont s.regs) = none ∧ op ≠ .nop ∧ s.regs.frameCount ≠ 0#16 ∧
      t.engine = .busy
        { latch := latch op cont s.regs, out := outputOf op (latch op cont s.regs) s.dmem.read, hazard := false } := by
  have hp : (s.popped.respond .written).engine = .idle := he
  cases hc with
  | engine _ => exact .inl (State.engineStep_engine _)
  | hwReset _ => exact .inl rfl
  | softReset v _ _ => exact .inl rfl
  | command c _ w _ _ =>
    rcases State.issue_cases (s.popped.respond .written) c.2.1 c.2.2.1 c.2.2.2 (outputOf c.2.1) with
      ⟨⟨p, hb⟩, -⟩ | ⟨-, e, -, h⟩ | ⟨-, h⟩ | ⟨-, hv, ho, hn, h⟩
    · cases hp.symm.trans hb
    · exact .inl ((congrArg State.engine h).trans he)
    · exact .inl ((congrArg State.engine h).trans he)
    · exact .inr ⟨_, _, hv, ho, hn, congrArg State.engine h⟩
  | illegal e w _ _ => rw [State.issueIllegal_idle hp]; exact .inl he
  | hazard n a v q _ _ hq _ => cases he.symm.trans hq
  | busError x _ _ => exact .inl he
  | control v _ _ => exact .inl he
  | field r v _ _ _ => exact .inl he
  | reserved off v _ _ _ => exact .inl he
  | regRead off _ _ => exact .inl he
  | dmemWrite n a v _ _ _ => exact .inl he
  | dmemRead n a _ _ v => exact .inl he

/-- A command in flight after a step was accepted by it, or was in flight before with the same latch and output. -/
theorem StepCase.engine_sound {s t : State} (hc : StepCase s t) (hs : s.engine.sound s.dmem.size = true) :
    t.engine.sound s.dmem.size = true := by
  cases he : s.engine with
  | idle =>
    rcases hc.engine_of_idle he with h | ⟨op, cont, hv, ho, hn, h⟩ <;> rw [h]
    · rfl
    · exact (Engine.sound_busy_iff _ _).2 ⟨ho, hn, hv, outputOf_length (L := latch op cont s.regs) ho _⟩
  | busy p =>
    rw [he] at hs
    rcases hc.engine_of_busy he with h | h | h <;> rw [h]
    · rfl
    · exact hs
    · exact hs

/-! ## What a step makes of DMEM (R52, R101, R165) -/

/-- A completion fills the destination and writes nothing else, with the output or with draws. -/
theorem State.storeOutput_dmem {s : State} {p : Pending} (hs : (Engine.busy p).sound s.dmem.size = true) :
    ∃ bs : List Byte, bs.length = p.latch.regions.dst.len ∧
      (s.storeOutput p).dmem = s.dmem.writeBytes p.latch.regions.dst.base bs := by
  obtain ⟨ho, -, -, hlen⟩ := (Engine.sound_busy_iff _ _).1 hs
  cases hh : p.hazard with
  | true => exact ⟨_, drawn_length _ _, by rw [State.storeOutput_hazard hh]; rfl⟩
  | false => exact ⟨p.out, hlen, by rw [State.storeOutput_clean hh, Latch.dst_base ho]⟩

/-- Everything a step can do to DMEM: nothing, fill the destination of a command that ends, store the value of a host
write, or forget every byte by a hardware reset. -/
theorem StepCase.dmem_cases {s t : State} (hc : StepCase s t) (hs : s.engine.sound s.dmem.size = true) :
    t.dmem = s.dmem ∨
    (∃ p bs, s.engine = .busy p ∧ t.engine = .idle ∧ bs.length = p.latch.regions.dst.len ∧
      t.dmem = s.dmem.writeBytes p.latch.regions.dst.base bs) ∨
    (∃ n a v, s.inbox.head? = some (.host (.dmemWrite n a v)) ∧
      t.dmem = s.dmem.writeBytes a.toNat (littleEndian n v)) ∨
    (s.inbox.head? = some .hwReset ∧ t.dmem = s.dmem.reset) := by
  cases hc with
  | engine _ =>
    cases he : s.engine with
    | idle => exact .inl (by rw [State.engineStep_idle (s := s.popped) he])
    | busy p =>
      obtain ⟨bs, hlen, hw⟩ := State.storeOutput_dmem (s := s.popped) (p := p) (he ▸ hs)
      exact .inr (.inl ⟨p, bs, rfl, State.engineStep_engine _, hlen,
        (congrArg State.dmem (State.engineStep_busy (s := s.popped) he)).trans hw⟩)
  | softReset v _ _ =>
    cases he : s.engine with
    | idle => exact .inl (by rw [State.softReset_idle (s := s.popped.respond .written) he]; rfl)
    | busy p =>
      exact .inr (.inl ⟨p, _, rfl, rfl, drawn_length s.draws _,
        congrArg State.dmem (State.softReset_busy (s := s.popped.respond .written) he)⟩)
  | dmemWrite n a v h _ _ => exact .inr (.inr (.inl ⟨n, a, v, h, rfl⟩))
  | hazard n a v p h _ _ _ => exact .inr (.inr (.inl ⟨n, a, v, h, rfl⟩))
  | hwReset h => exact .inr (.inr (.inr ⟨h, rfl⟩))
  | command c _ w _ _ => exact .inl (State.issue_dmem ..)
  | illegal e w _ _ => exact .inl (State.issueIllegal_dmem ..)
  | busError x _ _ => exact .inl rfl
  | control v _ _ => exact .inl rfl
  | field r v _ _ _ => exact .inl rfl
  | reserved off v _ _ _ => exact .inl rfl
  | regRead off _ _ => exact .inl rfl
  | dmemRead n a _ _ v => exact .inl rfl

/-- Where a run of writes changed a byte, the byte lies in the run. -/
theorem Memory.in_range_of_read_writeBytes_ne {m : Memory} {a x : Nat} {bs : List Byte}
    (h : (m.writeBytes a bs).read x ≠ m.read x) : a ≤ x ∧ x < a + bs.length := by
  by_contra hx
  exact h (m.read_writeBytes_outside bs (by omega))

/-- Settles O56: each of the ways a step writes DMEM changes bytes only in its own range. -/
theorem dmemChangesOnlyWhereAllowed : Obligations.DmemChangesOnlyWhereAllowed := by
  intro s t x hi hstep hx
  rcases (step_case hstep).dmem_cases hi.engine with
    h | ⟨p, bs, hb, ht, hlen, h⟩ | ⟨n, a, v, hh, h⟩ | ⟨hh, -⟩
  · exact absurd (by rw [h]) hx
  · have hr := Memory.in_range_of_read_writeBytes_ne (h ▸ hx)
    rw [hlen] at hr
    exact .inl ⟨p, hb, ht, decide_eq_true hr⟩
  · have hr := Memory.in_range_of_read_writeBytes_ne (h ▸ hx)
    rw [littleEndian_length] at hr
    exact .inr (.inl ⟨n, a, v, hh, hr⟩)
  · exact .inr (.inr hh)

/-! ## The invariant (R47, R145) -/

/-- No step changes MEM_BYTES, and each keeps the canonical form. -/
theorem StepCase.dmem_size_wf {s t : State} (hc : StepCase s t) (hi : s.Inv) :
    t.dmem.size = s.dmem.size ∧ t.dmem.wf = true := by
  rcases hc.dmem_cases hi.engine with h | ⟨p, bs, -, -, -, h⟩ | ⟨n, a, v, -, h⟩ | ⟨-, h⟩ <;> rw [h]
  · exact ⟨rfl, hi.memory⟩
  · exact ⟨Memory.writeBytes_size .., Memory.wf_writeBytes hi.memory ..⟩
  · exact ⟨Memory.writeBytes_size .., Memory.wf_writeBytes hi.memory ..⟩
  · exact ⟨rfl, Memory.wf_reset _⟩

/-- ERR_CODE is read-only to the host (R28, R87). -/
@[simp] theorem writeField_errCode (regs : Regs) (r : RegName) (v : Word) :
    (writeField regs r v).errCode = regs.errCode := by
  cases r <;> rfl

theorem State.issue_errCode_le {s : State} (h : s.regs.errCode.toNat ≤ 5) (op : Op) (cont : Bool) (w : Word)
    (f : Latch → (Nat → Byte) → List Byte) : (s.issue op cont w f).regs.errCode.toNat ≤ 5 := by
  rcases State.issue_cases s op cont w f with ⟨-, hs⟩ | ⟨-, e, -, hs⟩ | ⟨-, hs⟩ | ⟨-, -, -, -, hs⟩ <;> rw [hs]
  · exact h
  · exact errCodeOf_le e.name
  · exact Nat.zero_le 5
  · exact h

theorem State.issueIllegal_errCode_le {s : State} (h : s.regs.errCode.toNat ≤ 5) (e : Illegal) (w : Word) :
    (s.issueIllegal e w).regs.errCode.toNat ≤ 5 := by
  cases he : s.engine with
  | busy p => rw [State.issueIllegal_busy he]; exact h
  | idle => rw [State.issueIllegal_idle he]; exact errCodeOf_le _

theorem State.engineStep_errCode_le {s : State} (h : s.regs.errCode.toNat ≤ 5) :
    s.engineStep.regs.errCode.toNat ≤ 5 := by
  cases he : s.engine with
  | idle => rwa [State.engineStep_idle he]
  | busy p => rw [State.engineStep_busy he]; exact Nat.zero_le 5

/-- A step leaves ERR_CODE alone or sets it to the code of a completion or to its reset value. -/
theorem StepCase.errCode_le {s t : State} (hc : StepCase s t) (h : s.regs.errCode.toNat ≤ 5) :
    t.regs.errCode.toNat ≤ 5 := by
  have ha : (s.popped.respond .written).regs.errCode.toNat ≤ 5 := h
  cases hc with
  | engine _ => exact State.engineStep_errCode_le (s := s.popped) h
  | hwReset _ => exact Nat.zero_le 5
  | softReset v _ _ => exact Nat.zero_le 5
  | command c _ w _ _ => exact State.issue_errCode_le ha ..
  | illegal e w _ _ => exact State.issueIllegal_errCode_le ha e w
  | field r v _ _ _ => rwa [writeField_errCode]
  | busError x _ _ => exact h
  | control v _ _ => exact h
  | reserved off v _ _ _ => exact h
  | regRead off _ _ => exact h
  | dmemWrite n a v _ _ _ => exact h
  | hazard n a v p _ _ _ _ => exact h
  | dmemRead n a _ _ v => exact h

/-- Settles O48: each part of the invariant is kept by every case of a step. -/
theorem everyStepKeepsTheInvariant : Obligations.EveryStepKeepsTheInvariant := by
  intro s t hi hstep
  have hc := step_case hstep
  obtain ⟨hsize, hwf⟩ := hc.dmem_size_wf hi
  exact ⟨hwf, hsize ▸ hi.size, hsize ▸ hc.engine_sound hi.engine, hc.errCode_le hi.errCode⟩

/-! ## A read after a write (R50, R62) -/

/-- The bytes just written, where all of them are backed. -/
theorem Memory.readBytes_writeBytes (m : Memory) {a : Nat} {bs : List Byte} (h : a + bs.length ≤ m.size) :
    (m.writeBytes a bs).readBytes a bs.length = bs := by
  refine List.ext_getElem (by simp [Memory.readBytes]) fun k _ hk => ?_
  simpa [Memory.readBytes] using m.read_writeBytes_inside bs hk (by omega)

theorem legalDmemAccess_backed {m n : Nat} {a : Word} (h : legalDmemAccess m n a = true) : a.toNat + n ≤ m := by
  simp only [legalDmemAccess, Bool.and_eq_true, decide_eq_true_eq] at h
  exact h.2

/-- With no command in flight a legal write meets no region (R89). -/
theorem step_dmemWrite_idle {s : State} {n : Nat} {a v : Word} {rest : List Event} (he : s.engine = .idle)
    (hl : legalDmemAccess s.dmem.size n a = true) (h : s.inbox = .host (.dmemWrite n a v) :: rest) :
    step s = .next ({ s with
      inbox := rest, dmem := s.dmem.writeBytes a.toNat (littleEndian n v) }.respond .written) := by
  rw [step_cons h]
  simp only [eventStep, hostStep, dmemWrite, hl, he, if_true]

/-- With no command in flight a legal read takes no draw and answers the bytes DMEM holds (R90). -/
theorem step_dmemRead_idle {s : State} {n : Nat} {a : Word} {rest : List Event} (he : s.engine = .idle)
    (hl : legalDmemAccess s.dmem.size n a = true) (h : s.inbox = .host (.dmemRead n a) :: rest) :
    step s = .next ({ s with inbox := rest }.respond
      (.data (BitVec.ofNat 32 (littleEndianValue (s.dmem.readBytes a.toNat n))))) := by
  rw [step_cons h]
  simp only [eventStep, hostStep, dmemRead, hl, he, if_true, drawsOfRead, readByte, Nat.add_zero, Memory.readBytes]

/-- Settles O47: the bytes read are the bytes written, and their value is the value cut to the width. -/
theorem dmemReadAfterWriteReturnsTheValue : Obligations.DmemReadAfterWriteReturnsTheValue := by
  intro s n a v he hwf hinbox
  have hl : legalDmemAccess s.dmem.size n a = true := (wellFormed_dmemWrite ..).symm.trans hwf
  have hbytes : (s.dmem.writeBytes a.toNat (littleEndian n v)).readBytes a.toNat n = littleEndian n v := by
    simpa using s.dmem.readBytes_writeBytes (bs := littleEndian n v) (by simpa using legalDmemAccess_backed hl)
  have hwrite := step_dmemWrite_idle he hl hinbox
  have hread := step_dmemRead_idle
    (s := { s with
      inbox := [.host (.dmemRead n a)], dmem := s.dmem.writeBytes a.toNat (littleEndian n v) }.respond .written)
    he (by simpa using hl) rfl
  refine ⟨_, (run_succ core 1 hwrite).trans (run_succ core 0 hread), ?_, rfl, rfl⟩
  simp [hbytes, littleEndianValue_littleEndian]

end Sys2Proof.Machine
end

section
/-! PROOFS. Encoding (30_encoding.md): the fields of a command word, the decoder's priority order, decode against
encode, the disassembly, and the step that takes an illegal command word or a CTRL write. -/

namespace Sys2Proof

open Machine

/-! ## The fields of a command word (R72) -/

theorem commandFields_opcode_toNat (w : Word) : (commandFields w).opcode.toNat = w.toNat % 256 := by
  simp [commandFields]

theorem commandFields_cont (w : Word) : (commandFields w).cont = decide (w.toNat / 256 % 2 = 1) := by
  simp [commandFields, BitVec.getLsbD, Nat.testBit_eq_decide_div_mod_eq]

theorem commandFields_rsvd_eq_zero_iff (w : Word) : (commandFields w).rsvd = 0#23 ↔ w.toNat / 512 = 0 := by
  have hw : w.toNat < 2 ^ 32 := w.isLt
  simp only [commandFields, ← BitVec.toNat_inj, BitVec.extractLsb'_toNat, BitVec.toNat_ofNat, Nat.shiftRight_eq_div_pow]
  omega

/-- The three fields are the whole word: each bit of it lies in one of them. -/
theorem commandWord_commandFields (w : Word) : commandWord (commandFields w) = w := by
  apply BitVec.eq_of_getLsbD_eq
  intro k hk
  simp [commandWord, commandFields]
  grind

/-- The four byte lanes are the whole word: each bit of it lies in one of them (20_memory.md R51). -/
theorem wordOfLanes_byteLane (w : Word) :
    wordOfLanes (byteLane w 0) (byteLane w 1) (byteLane w 2) (byteLane w 3) = w := by
  apply BitVec.eq_of_getLsbD_eq
  intro k hk
  simp [wordOfLanes, byteLane]
  grind

theorem decodeBytes_byteLane (off : Offset) (w : Word) :
    decodeBytes off [byteLane w 0, byteLane w 1, byteLane w 2, byteLane w 3] = decodeWrite off w := by
  rw [decodeBytes, wordOfLanes_byteLane]

/-! ## The command of a legal opcode (R73, R77) -/

theorem commandOf_ne_opcode : ∀ n < 5, ∀ c, commandOf n c ≠ .illegal .opcode := by decide

theorem commandOf_eq_rsvd_iff : ∀ n < 5, ∀ c, commandOf n c = .illegal .rsvd ↔ c = true ∧ n ≤ 2 := by decide

/-- A legal opcode with its CONT bit is the command whose word has these two fields. -/
theorem encode_of_commandOf {op : BitVec 8} {c : Bool} {i : Instr} (h : commandOf op.toNat c = .instr i) :
    encode i = (regOffset .cmd, commandWord { opcode := op, cont := c, rsvd := 0#23 }) := by
  have hop : op = BitVec.ofNat 8 op.toNat := by simp
  rw [hop]
  generalize op.toNat = n at h
  unfold commandOf at h
  split at h <;> cases h <;> rfl

/-! ## The priority order of the decoder (R79) -/

/-- The decoder on the numbers the fields hold. -/
theorem decodeCommand_eq (w : Word) :
    decodeCommand w =
      if 5 ≤ w.toNat % 256 then .illegal .opcode
      else if w.toNat / 512 ≠ 0 then .illegal .rsvd
      else commandOf (w.toNat % 256) (decide (w.toNat / 256 % 2 = 1)) := by
  simp only [decodeCommand, commandFields_opcode_toNat, commandFields_cont, ne_eq, commandFields_rsvd_eq_zero_iff]

theorem decodeCommand_eq_opcode_iff (w : Word) : decodeCommand w = .illegal .opcode ↔ 5 ≤ w.toNat % 256 := by
  rw [decodeCommand_eq]
  by_cases ho : 5 ≤ w.toNat % 256
  · simp [ho]
  · by_cases hr : w.toNat / 512 = 0
    · simpa [ho, hr] using commandOf_ne_opcode _ (Nat.lt_of_not_le ho) _
    · simp [ho, hr]

theorem decodeCommand_eq_rsvd_iff (w : Word) :
    decodeCommand w = .illegal .rsvd ↔
      w.toNat % 256 < 5 ∧ (w.toNat / 512 ≠ 0 ∨ (w.toNat / 256 % 2 = 1 ∧ w.toNat % 256 ≤ 2)) := by
  rw [decodeCommand_eq]
  by_cases ho : 5 ≤ w.toNat % 256
  · simp [ho]
  · have hlt : w.toNat % 256 < 5 := Nat.lt_of_not_le ho
    by_cases hr : w.toNat / 512 = 0
    · simp [ho, hr, hlt, commandOf_eq_rsvd_iff _ hlt]
    · simp [ho, hr, hlt]

/-! ## Decode against encode (R73, R79, R80) -/

/-- A CMD word that decodes is the encoding of what it decodes to. -/
theorem encode_of_decodeCommand {w : Word} {i : Instr} (h : decodeCommand w = .instr i) :
    encode i = (regOffset .cmd, w) := by
  unfold decodeCommand at h
  dsimp only at h
  split at h
  · cases h
  · split at h
    · cases h
    · rename_i hr
      have hw := commandWord_commandFields w
      rw [encode_of_commandOf h, ← not_ne_iff.1 hr, hw]

theorem decodeWrite_encode (i : Instr) : decodeWrite (encode i).1 (encode i).2 = .instr i := by
  cases i with
  | nop => decide
  | cscFwd => decide
  | cscInv => decide
  | deltaFwd c => cases c <;> decide
  | deltaInv c => cases c <;> decide
  | softReset => decide

theorem decodeControl_odd {w : Word} (h : w.toNat % 2 = 1) : decodeControl w = .instr .softReset := by
  simp [decodeControl, BitVec.getLsbD, h]

theorem decodeControl_even {w : Word} (h : w.toNat % 2 = 0) : decodeControl w = .noInstr := by
  simp [decodeControl, BitVec.getLsbD, h]

/-- A write that decodes is to the register its encoding names. -/
theorem encode_offset_of_decodeWrite {off : Offset} {w : Word} {i : Instr} (h : decodeWrite off w = .instr i) :
    (encode i).1 = off := by
  unfold decodeWrite at h
  split at h
  · rename_i hr
    rw [encode_of_decodeCommand h, regAt_eq_some hr]
  · rename_i hr
    unfold decodeControl at h
    split at h
    · cases h
      exact (regAt_eq_some hr).symm
    · cases h
  · cases h

/-- Settles O2: the encodings decode one by one, the lanes are the word, and a command word is its three fields. -/
theorem decodeAndEncodeAgree : Obligations.DecodeAndEncodeAgree :=
  ⟨decodeWrite_encode, fun i => (decodeBytes_byteLane ..).trans (decodeWrite_encode i),
    fun _ _ => encode_of_decodeCommand, fun _ _ _ => encode_offset_of_decodeWrite⟩

/-- Settles O1: each full word is the encoding of its command. -/
theorem fullWordsDecodeToTheirCommands : Obligations.FullWordsDecodeToTheirCommands :=
  ⟨decodeWrite_encode .nop, decodeWrite_encode .cscFwd, decodeWrite_encode .cscInv,
    decodeWrite_encode (.deltaFwd false), decodeWrite_encode (.deltaFwd true),
    decodeWrite_encode (.deltaInv false), decodeWrite_encode (.deltaInv true), decodeWrite_encode .softReset⟩

/-! ## The rows of the opcode map (R73, R79) -/

/-- The full word of a row is the one its command is encoded as. -/
theorem commandTable_word : ∀ c ∈ commandTable, (encode c.1).2 = c.2.2.2 := by decide

/-- A CMD word that decodes to `i` is the full word of the row of `i`. -/
theorem exists_row_of_decodeCommand {w : Word} {i : Instr} (h : decodeCommand w = .instr i) :
    ∃ c ∈ commandTable, c.2.2.2 = w ∧ c.1 = i := by
  have hi : i ≠ .softReset := by
    rintro rfl
    exact decodeCommand_not_softReset w h
  obtain ⟨c, hc, rfl, -⟩ := exec_command hi
  exact ⟨c, hc, by rw [← commandTable_word c hc, encode_of_decodeCommand h], rfl⟩

/-- A word is the full word of a row exactly when the decoder rejects it for neither reason. -/
theorem exists_row_iff_legal (w : Word) :
    (∃ c ∈ commandTable, c.2.2.2 = w ∧ decodeCommand w = .instr c.1) ↔
      decodeCommand w ≠ .illegal .opcode ∧ decodeCommand w ≠ .illegal .rsvd := by
  constructor
  · rintro ⟨c, -, -, h⟩
    simp [h]
  · rintro ⟨ho, hr⟩
    rcases decodeCommand_cases w with ⟨i, -, h⟩ | ⟨e, h⟩
    · obtain ⟨c, hc, hw, rfl⟩ := exists_row_of_decodeCommand h
      exact ⟨c, hc, hw, h⟩
    · cases e with
      | opcode => exact absurd h ho
      | rsvd => exact absurd h hr

/-- Settles O3: the two rejections by the fields of the word, and the commands as the words that neither rejects. -/
theorem illegalWordsAreNamedInPriorityOrder : Obligations.IllegalWordsAreNamedInPriorityOrder := by
  intro w
  refine ⟨decodeCommand_eq_opcode_iff w, decodeCommand_eq_rsvd_iff w, ?_⟩
  rw [exists_row_iff_legal, ne_eq, decodeCommand_eq_opcode_iff, ne_eq, decodeCommand_eq_rsvd_iff]
  omega

/-! ## The disassembly (R83, R86) -/

theorem assembleCommand_commandText {i : Instr} (hi : i ≠ .softReset) :
    assembleCommand (commandText i) = some (encode i).2 := by
  cases i with
  | nop => decide
  | cscFwd => decide
  | cscInv => decide
  | deltaFwd c => cases c <;> decide
  | deltaInv c => cases c <;> decide
  | softReset => exact absurd rfl hi

/-- No command begins with a dot, so the assembler refuses what does. -/
theorem assembleCommand_eq_none_of_dot {text : String} (h : text.toList.head? = some '.') :
    assembleCommand text = none := by
  have hne : ∀ name : String, name.toList.head? ≠ some '.' → text ≠ name := by
    rintro name hn rfl
    exact hn h
  simp (disch := decide) only [assembleCommand, hne, if_false]

theorem disassemble_instr {w : Word} {i : Instr} (h : decodeCommand w = .instr i) :
    disassemble w = commandText i := by
  rw [disassemble, h]

theorem disassemble_illegal {w : Word} {e : Illegal} (h : decodeCommand w = .illegal e) :
    (disassemble w).toList.head? = some '.' := by
  cases e <;> simp [disassemble, h]

/-- Settles O5: a legal word prints as the text of its command, an illegal one begins with a dot. -/
theorem disassemblyOfLegalWordsIsInvertible : Obligations.DisassemblyOfLegalWordsIsInvertible := by
  intro w
  rcases decodeCommand_cases w with ⟨i, hi, h⟩ | ⟨e, h⟩
  · refine ⟨fun _ => ?_, fun hn => absurd h (hn i)⟩
    rw [disassemble_instr h, assembleCommand_commandText hi, encode_of_decodeCommand h]
  · refine ⟨fun ⟨i, hi⟩ => ?_, fun _ => assembleCommand_eq_none_of_dot (disassemble_illegal h)⟩
    cases h.symm.trans hi

/-! ## A step that takes a register write (R80, R87) -/

section

variable {s : State} {off : Offset} {w : Word} {rest : List Event}

theorem legalRegAccess_four (ha : off.toNat % 4 = 0) : legalRegAccess 4 off = true :=
  (legalRegAccess_iff 4 off).2 ⟨rfl, ha⟩

theorem step_regWrite_instr {i : Instr} (h : s.inbox = .host (.regWrite 4 off w) :: rest) (ha : off.toNat % 4 = 0)
    (hd : decodeWrite off w = .instr i) :
    step s = exec i { s with inbox := rest, response := some .written } := by
  rw [step_cons h]
  simp only [eventStep, hostStep, mmioWrite, legalRegAccess_four ha, hd, if_true, State.respond]

theorem step_regWrite_illegal {e : Illegal} (h : s.inbox = .host (.regWrite 4 off w) :: rest)
    (ha : off.toNat % 4 = 0) (hd : decodeWrite off w = .illegal e) :
    step s = .next (State.issueIllegal { s with inbox := rest, response := some .written } e w) := by
  rw [step_cons h]
  simp only [eventStep, hostStep, mmioWrite, legalRegAccess_four ha, hd, if_true, State.respond]

theorem step_regWrite_noInstr (h : s.inbox = .host (.regWrite 4 off w) :: rest) (ha : off.toNat % 4 = 0)
    (hd : decodeWrite off w = .noInstr) :
    step s = .next (State.writeRegister { s with inbox := rest, response := some .written } off w) := by
  rw [step_cons h]
  simp only [eventStep, hostStep, mmioWrite, legalRegAccess_four ha, hd, if_true, State.respond]

end

/-- Settles O4: bit 0 decides the decoding of CTRL, and the register itself stores nothing. -/
theorem controlBitZeroIsTheSoftResetTrigger : Obligations.ControlBitZeroIsTheSoftResetTrigger := by
  intro s w rest h
  refine ⟨fun hodd => ?_, fun heven => ?_⟩
  · have hd : decodeWrite 0x008#12 w = .instr .softReset := decodeControl_odd hodd
    exact ⟨hd, step_regWrite_instr h rfl hd⟩
  · have hd : decodeWrite 0x008#12 w = .noInstr := decodeControl_even heven
    exact ⟨hd, step_regWrite_noInstr h rfl hd⟩

/-- An illegal CMD word at an Idle engine is stored and completes with its error (R76, R77, R96). -/
theorem step_illegal_idle {s : State} {w : Word} {e : Illegal} {rest : List Event}
    (h : s.inbox = .host (.regWrite 4 0x00C#12 w) :: rest) (he : s.engine = .idle)
    (hd : decodeCommand w = .illegal e) :
    step s = .next { s with
      inbox := rest, response := some .written, regs := erroredRegs s.regs w (errCodeOf (illegalName e)) w } := by
  rw [step_regWrite_illegal h rfl hd, State.issueIllegal_idle (s := { s with inbox := rest, response := some .written }) he]
  rfl

/-- Settles O9: the code is that of the rejection the decoder names. -/
theorem illegalWordCompletesWithItsError : Obligations.IllegalWordCompletesWithItsError := by
  intro s w rest h he
  exact ⟨fun ho => step_illegal_idle h he ((decodeCommand_eq_opcode_iff w).2 ho),
    fun ho hr => step_illegal_idle h he ((decodeCommand_eq_rsvd_iff w).2 ⟨ho, hr⟩)⟩

end Sys2Proof
end

section
/-! PROOFS. Commands (40_command_lifecycle.md): the operand checks at issue, acceptance and completion, the register
window and DMEM as the host reads and writes them, and how a command in flight ends. -/

namespace Sys2Proof.Machine

/-! ## The step that carries an instruction (R71, R87) -/

theorem encode_offset_aligned (i : Instr) : (encode i).1.toNat % 4 = 0 := by
  cases i <;> decide +revert

/-- A legal command word is placed at CMD. -/
theorem withFetchWord_command {w : Word} {i : Instr} (h : decodeCommand w = .instr i) (s : State) :
    s.withFetchWord 32 w.toNat = s.withWrite 0x00C#12 w := by
  simp only [State.withFetchWord, tableOffset, BitVec.ofNat_toNat, BitVec.setWidth_eq, h, Nat.lt_irrefl, if_false]
  rfl

theorem step_withFetchWord {w : Word} {i : Instr} (h : decodeCommand w = .instr i) (s : State) :
    step (s.withFetchWord 32 w.toNat) = exec i { s with response := some .written } := by
  rw [withFetchWord_command h]
  exact step_regWrite_instr (State.withWrite_inbox ..) rfl h

/-- Settles O6: a write that decodes is to an aligned offset, so the bus performs it. -/
theorem stepRunsTheDecodedInstruction : Obligations.StepRunsTheDecodedInstruction := by
  refine ⟨fun s off w i rest h hd => step_regWrite_instr h ?_ hd, fun s w i hd => step_withFetchWord hd s⟩
  rw [← encode_offset_of_decodeWrite hd]
  exact encode_offset_aligned i

/-! ## Commands at an Idle engine -/

/-- Settles O7: NOP has no operand to check. -/
theorem nopCompletesAtIssue : Obligations.NopCompletesAtIssue := by
  intro s he
  have hv : validate s.dmem.size (latch .nop false s.regs) = none := if_pos rfl
  exact congrArg Host.Outcome.next (State.issue_empty he hv (.inl rfl) _ _)

section

variable {c : Instr × Op × Bool × Word} {s : State}

theorem exec_data_error {e : CommandError} (hc : c ∈ dataCommands) (he : s.engine = .idle)
    (hv : validate s.dmem.size (latch c.2.1 c.2.2.1 s.regs) = some e) :
    exec c.1 s = .next { s with regs := erroredRegs s.regs c.2.2.2 (errCodeOf e.name) e.info } := by
  rw [exec_row (data_row hc).1, State.issue_error he hv]
  rfl

theorem exec_data_empty (hc : c ∈ dataCommands) (he : s.engine = .idle) (hn : s.regs.frameCount = 0#16)
    (hg : GoodOperands s.dmem.size c.2.1 c.2.2.1 s.regs) :
    exec c.1 s = .next { s with regs := { s.regs with
      cmd := c.2.2.2, errCode := 0x00#8, errInfo := 0#32, irqStatus := s.regs.irqStatus ||| 0b001#3 } } := by
  obtain ⟨hrow, hop, hcont, -⟩ := data_row hc
  rw [exec_row hrow, State.issue_empty he ((goodOperands_iff _ _ _ _ hop hcont).1 hg) (.inr hn)]
  rfl

theorem exec_data_accept (hc : c ∈ dataCommands) (he : s.engine = .idle) (hn : s.regs.frameCount ≠ 0#16)
    (hg : GoodOperands s.dmem.size c.2.1 c.2.2.1 s.regs) :
    exec c.1 s = .next { s with
      regs := { s.regs with cmd := c.2.2.2 },
      engine := .busy { latch := latch c.2.1 c.2.2.1 s.regs,
                        out := outputOf c.2.1 (latch c.2.1 c.2.2.1 s.regs) s.dmem.read, hazard := false } } := by
  obtain ⟨hrow, hop, hcont, -⟩ := data_row hc
  rw [exec_row hrow, State.issue_accept he ((goodOperands_iff _ _ _ _ hop hcont).1 hg) hop hn]
  rfl

end

/-- Settles O14: the checks pass exactly the good operands, and acceptance follows. -/
theorem goodDataCommandIsAccepted : Obligations.GoodDataCommandIsAccepted :=
  fun _ hc _ he hn hg => exec_data_accept hc he hn hg

/-! ## No frames to process (R93, R97) -/

/-- With N = 0 every region is empty, so none is out of range and none overlaps another. -/
theorem goodOperands_of_empty {r : Regs} (hn : r.frameCount = 0#16) (hw : GoodDim r.width) (hh : GoodDim r.height)
    (m : Nat) (op : Op) (cont : Bool) : GoodOperands m op cont r := by
  have hsrc : srcLen op r = 0 := by simp [srcLen, hn]
  have hdst : dstLen op r = 0 := by simp [dstLen, hn]
  have href : refLen cont r = 0 := by simp [refLen, hn]
  simp [GoodOperands, InRange, SrcDstConflict, RefDstConflict, Meet, hw, hh, hsrc, hdst, href]

/-- Settles O8: empty regions pass every check, whatever the addresses. -/
theorem emptyDataCommandCompletesAtIssue : Obligations.EmptyDataCommandCompletesAtIssue :=
  fun _ hc _ he hw hh hn => exec_data_empty hc he hn (goodOperands_of_empty hn hw hh ..)

/-! ## The operand checks that fail (R92, R94, R95) -/

section

variable {m : Nat} {L : Latch}

theorem validate_bad_dimension (ho : L.op ≠ .nop) (hd : ¬ (GoodDim L.w ∧ GoodDim L.h)) :
    validate m L = some { name := .dim, info := BitVec.ofNat 32 (dimensionInfo L) } := by
  rw [validate, if_neg ho, if_pos (mt (dimensionInfo_eq_zero L).1 hd)]

theorem validate_out_of_range {k : Nat} (ho : L.op ≠ .nop) (hw : GoodDim L.w) (hh : GoodDim L.h)
    (hr : rangeInfo m L = some k) :
    validate m L = some { name := .range, info := BitVec.ofNat 32 k } := by
  rw [validate, if_neg ho, if_neg (not_not.2 ((dimensionInfo_eq_zero L).2 ⟨hw, hh⟩)), hr]

theorem validate_overlap {k : Nat} (ho : L.op ≠ .nop) (hw : GoodDim L.w) (hh : GoodDim L.h)
    (hr : rangeInfo m L = none) (hk : overlapInfo L = some k) :
    validate m L = some { name := .overlap, info := BitVec.ofNat 32 k } := by
  rw [validate, if_neg ho, if_neg (not_not.2 ((dimensionInfo_eq_zero L).2 ⟨hw, hh⟩)), hr, hk]

end

/-- Bit 0 of the information stands for W and bit 1 for H. -/
theorem dimensionInfo_bits (L : Latch) :
    (dimensionInfo L % 2 = 1 ↔ ¬ GoodDim L.w) ∧ (dimensionInfo L / 2 = 1 ↔ ¬ GoodDim L.h) ∧
      dimensionInfo L ≤ 3 := by
  rw [dimensionInfo, ← badDimension_iff, ← badDimension_iff]
  cases badDimension L.w <;> cases badDimension L.h <;> decide

/-- Settles O10: the dimensions are checked first, and their information word has one bit for each. -/
theorem badDimensionIsReportedFirst : Obligations.BadDimensionIsReportedFirst := by
  intro c hc s he hd
  obtain ⟨-, hop, -, -⟩ := data_row hc
  obtain ⟨hw, hh, hle⟩ := dimensionInfo_bits (latch c.2.1 c.2.2.1 s.regs)
  have hlt := Nat.mod_eq_of_lt (Nat.lt_of_le_of_lt hle (by decide : 3 < 2 ^ 32))
  refine ⟨_, ?_, ?_, ?_, exec_data_error hc he (validate_bad_dimension hop hd)⟩ <;> rw [BitVec.toNat_ofNat, hlt]
  · exact hw
  · exact hh
  · exact hle

/-- Where some region is out of range, the check names the first. -/
theorem rangeInfo_of_not_inRange {m : Nat} {op : Op} {cont : Bool} {r : Regs} (ho : op ≠ .nop)
    (hd : cont = true → IsDelta op) (h : ¬ InRange m op cont r) :
    rangeInfo m (latch op cont r) = some (
      if 0 < srcLen op r ∧ m < r.srcAddr.toNat + srcLen op r then 0
      else if 0 < dstLen op r ∧ m < r.dstAddr.toNat + dstLen op r then 1 else 2) := by
  have hne : rangeInfo m (latch op cont r) ≠ none := mt (inRange_iff m op cont r ho hd).2 h
  rw [rangeInfo_latch m op cont r ho hd] at hne ⊢
  split_ifs at hne ⊢
  · rfl
  · rfl
  · rfl
  · exact absurd rfl hne

/-- Settles O11: the range check follows the dimensions and precedes the overlaps. -/
theorem rangeErrorNamesTheFirstBadRegion : Obligations.RangeErrorNamesTheFirstBadRegion := by
  intro c hc s he hw hh hr
  obtain ⟨-, hop, hcont, -⟩ := data_row hc
  have hexec := exec_data_error hc he (validate_out_of_range hop hw hh (rangeInfo_of_not_inRange hop hcont hr))
  rw [apply_ite (BitVec.ofNat 32), apply_ite (BitVec.ofNat 32)] at hexec
  exact hexec

open Classical in
/-- Settles O12: with every region in range the overlap check decides, SRC with DST first. -/
theorem overlapErrorNamesTheRegions : Obligations.OverlapErrorNamesTheRegions := by
  intro c hc s he hw hh hr
  obtain ⟨-, hop, hcont, -⟩ := data_row hc
  have hrange := (inRange_iff _ _ _ _ hop hcont).1 hr
  have hinfo := overlapInfo_latch c.2.1 c.2.2.1 s.regs hop hcont
  refine ⟨fun hsrc => ?_, fun hsrc href => ?_⟩
  · rw [if_pos hsrc] at hinfo
    exact exec_data_error hc he (validate_overlap hop hw hh hrange hinfo)
  · rw [if_neg hsrc, if_pos href] at hinfo
    exact exec_data_error hc he (validate_overlap hop hw hh hrange hinfo)

/-! ## A CMD write while Busy (R103) -/

/-- Settles O13: a legal word and an illegal one both end in the overrun. -/
theorem commandWriteWhileBusyIsAnOverrun : Obligations.CommandWriteWhileBusyIsAnOverrun := by
  intro s w p rest h he
  have hb : State.engine { s with inbox := rest, response := some .written } = .busy p := he
  rcases decodeCommand_cases w with ⟨i, hi, hd⟩ | ⟨e, hd⟩
  · obtain ⟨c, -, -, hexec⟩ := exec_command hi
    rw [step_regWrite_instr h rfl hd, hexec, State.issue_busy hb]
    rfl
  · rw [step_regWrite_illegal h rfl hd, State.issueIllegal_busy hb]
    rfl

/-! ## Completion (R101) -/

theorem step_engine_turn {s : State} (h : s.inbox = [] ∨ s.inbox.head? = some .engine) :
    step s = .next s.popped.engineStep := by
  rcases h with h | h
  · have hp : s.popped = s := by rw [State.popped, h, List.tail_nil, ← h]
    rw [step_nil h, hp]
  · rw [step_cons (List.eq_cons_of_mem_head? h)]
    rfl

/-- A completion that no hazard precedes stores the output at L.DST. -/
theorem step_completion {s : State} {p : Pending} (he : s.engine = .busy p) (hz : p.hazard = false)
    (h : s.inbox = [] ∨ s.inbox.head? = some .engine) :
    step s = .next { s with
      inbox := s.inbox.tail, engine := .idle, dmem := s.dmem.writeBytes p.latch.dst.toNat p.out,
      regs := { s.regs with
        errCode := 0x00#8, errInfo := 0#32, irqStatus := s.regs.irqStatus ||| 0b001#3 } } := by
  rw [step_engine_turn h, State.engineStep_busy (s := s.popped) he, State.storeOutput_clean hz]
  rfl

/-- Settles O15: the output is one run of writes, inside MEM_BYTES. -/
theorem completionStoresTheOutput : Obligations.CompletionStoresTheOutput := by
  intro s p he hz hsize h
  exact ⟨_, step_completion he hz h, Memory.writeBytes_size ..,
    fun k hk => s.dmem.read_writeBytes_inside _ hk (by omega),
    fun a ha => s.dmem.read_writeBytes_outside _ ha⟩

theorem run_two_steps {s t u : State} (h : step s = .next t) (h' : step t = .next u) :
    Host.Core.run core 2 s = .next u :=
  (run_succ core 1 h).trans (run_succ core 0 h')

/-- Settles O16: the acceptance of the word is followed by the completion, both over the DMEM of issue. -/
theorem dataCommandReachesMemory : Obligations.DataCommandReachesMemory := by
  intro c hc s he hinbox hn hg out
  obtain ⟨-, hop, -, hdecode⟩ := data_row hc
  have hlen : out.length = dstLen c.2.1 s.regs :=
    (outputOf_length (L := latch c.2.1 c.2.2.1 s.regs) hop _).trans
      (congrArg Region.len (latch_dst_region _ _ _ hop))
  have hfetch := (step_withFetchWord hdecode s).trans
    (exec_data_accept (s := { s with response := some .written }) hc he hn hg)
  obtain ⟨-, -, ⟨-, hdst, -⟩, -, -⟩ := hg
  have hdone := run_two_steps hfetch (step_completion rfl rfl (.inl hinbox))
  refine ⟨_, hdone, hlen, fun k hk => ?_, fun a ha => ?_, rfl, rfl, rfl, by simp [hinbox], rfl,
    Memory.writeBytes_size ..⟩
  · have hbacked : s.regs.dstAddr.toNat + k < s.dmem.size := by
      have := hdst (by omega)
      omega
    exact s.dmem.read_writeBytes_inside out hk hbacked
  · exact s.dmem.read_writeBytes_outside out (by rwa [hlen])

/-! ## The register window (R87, R88, R105–R108) -/

theorem regAt_regOffset (r : RegName) : regAt (regOffset r) = some r := by
  cases r <;> rfl

/-- The registers fill the window from its start. -/
theorem regAt_ne_none : ∀ k < 16, regAt (BitVec.ofNat 12 (4 * k)) ≠ none := by decide

/-- A reserved offset lies past the last register. -/
theorem reserved_offset_ge {off : Offset} (h : regAt off = none) (ha : off.toNat % 4 = 0) : 0x040 ≤ off.toNat := by
  have hoff : BitVec.ofNat 12 (4 * (off.toNat / 4)) = off := by
    rw [Nat.mul_div_cancel' (Nat.dvd_of_mod_eq_zero ha), BitVec.ofNat_toNat, BitVec.setWidth_eq]
  by_contra hlt
  exact regAt_ne_none (off.toNat / 4) (by omega) ((congrArg regAt hoff).trans h)

theorem readRegister_status (s : State) :
    readRegister s .status = (match s.engine with | .idle => 0#32 | .busy _ => 1#32) := by
  cases h : s.engine <;> simp [readRegister, State.busy, h]

theorem step_regRead {s : State} {off : Offset} {rest : List Event} (h : s.inbox = .host (.regRead 4 off) :: rest)
    (ha : off.toNat % 4 = 0) :
    step s = .next { s with inbox := rest, response := some (.data (readOffset s off)) } := by
  rw [step_cons h]
  simp only [eventStep, hostStep, mmioRead, legalRegAccess_four ha, if_true]
  rfl

theorem readOffset_regOffset (s : State) (r : RegName) : readOffset s (regOffset r) = readRegister s r := by
  rw [readOffset, regAt_regOffset]

theorem readOffset_reserved {off : Offset} (h : regAt off = none) (s : State) : readOffset s off = 0#32 := by
  rw [readOffset, h]

/-- Settles O39: a named offset reads as its register, a reserved one as 0. -/
theorem registerReadAnswersTheTable : Obligations.RegisterReadAnswersTheTable := by
  intro s off rest h ha
  refine (step_regRead h ha).trans (congrArg (fun v => Host.Outcome.next
    { s with inbox := rest, response := some (Response.data v) }) ?_)
  cases hr : regAt off with
  | none =>
    have hge := reserved_offset_ge hr ha
    simp (disch := omega) only [readOffset_reserved hr, if_neg]
  | some r =>
    rw [regAt_eq_some hr, readOffset_regOffset]
    cases r with
    | status => exact readRegister_status s
    | _ => simp [regOffset, readRegister]

/-- A register other than CMD and CTRL carries no instruction. -/
theorem decodeWrite_noInstr {off : Offset} (hk : off.toNat ≠ 0x008) (hc : off.toNat ≠ 0x00C) (v : Word) :
    decodeWrite off v = .noInstr := by
  unfold decodeWrite
  split
  · rename_i hr
    exact absurd (congrArg BitVec.toNat (regAt_eq_some hr)) hc
  · rename_i hr
    exact absurd (congrArg BitVec.toNat (regAt_eq_some hr)) hk
  · rfl

theorem writeRegister_regOffset (s : State) (r : RegName) (v : Word) :
    s.writeRegister (regOffset r) v = { s with regs := writeField s.regs r v } := by
  rw [State.writeRegister, regAt_regOffset]

theorem writeRegister_reserved {off : Offset} (h : regAt off = none) (s : State) (v : Word) :
    s.writeRegister off v = s := by
  rw [State.writeRegister, h]

/-- Settles O40: a named offset takes its field, a reserved one nothing. -/
theorem registerWriteStoresItsField : Obligations.RegisterWriteStoresItsField := by
  intro s off v rest h ha hk hc
  rw [step_regWrite_noInstr h ha (decodeWrite_noInstr hk hc v)]
  cases hr : regAt off with
  | none =>
    have hge := reserved_offset_ge hr ha
    simp (disch := omega) only [writeRegister_reserved hr, if_neg]
  | some r =>
    rw [regAt_eq_some hr, writeRegister_regOffset]
    cases r <;> rfl

/-! ## DMEM writes (R50, R89) -/

/-- The bytes of a value stored little-endian in backed DMEM. -/
theorem Memory.read_writeBytes_littleEndian (m : Memory) {a n : Nat} (h : a + n ≤ m.size) (v : Word) {k : Nat}
    (hk : k < n) : ((m.writeBytes a (littleEndian n v)).read (a + k)).toNat = v.toNat / 256 ^ k % 256 := by
  rw [m.read_writeBytes_inside _ (by rwa [littleEndian_length]) (by omega), littleEndian_getElem, byteLane_toNat]

theorem Memory.read_writeBytes_littleEndian_outside (m : Memory) {a n x : Nat} (v : Word) (h : x < a ∨ a + n ≤ x) :
    (m.writeBytes a (littleEndian n v)).read x = m.read x :=
  m.read_writeBytes_outside _ (by rwa [littleEndian_length])

section

variable {s : State} {n : Nat} {a v : Word} {rest : List Event}

theorem step_dmemWrite_clear (hl : legalDmemAccess s.dmem.size n a = true)
    (h : s.inbox = .host (.dmemWrite n a v) :: rest)
    (hm : ∀ p, s.engine = .busy p → p.latch.meets a.toNat n = false) :
    step s = .next { s with
      inbox := rest, response := some .written, dmem := s.dmem.writeBytes a.toNat (littleEndian n v) } := by
  cases he : s.engine with
  | idle =>
    rw [step_dmemWrite_idle he hl h, ← he]
    rfl
  | busy p =>
    rw [step_cons h]
    simp [eventStep, hostStep, dmemWrite, hl, he, hm p he, State.respond]

theorem step_dmemWrite_hazard {p : Pending} (hl : legalDmemAccess s.dmem.size n a = true)
    (h : s.inbox = .host (.dmemWrite n a v) :: rest) (he : s.engine = .busy p)
    (hm : p.latch.meets a.toNat n = true) :
    step s = .next { s with
      inbox := rest, response := some .written, dmem := s.dmem.writeBytes a.toNat (littleEndian n v),
      engine := .busy { p with hazard := true },
      fault := s.fault.or (some (.hazardFault (.dmemWrite n a v))) } := by
  rw [step_cons h]
  simp only [eventStep, hostStep, dmemWrite, hl, he, hm, if_true]
  rfl

end

/-- Settles O43: the write is one run of bytes, inside MEM_BYTES. -/
theorem dmemWriteStoresLittleEndian : Obligations.DmemWriteStoresLittleEndian := by
  intro s n a v rest h hwf hm
  rw [wellFormed_dmemWrite] at hwf
  exact ⟨_, step_dmemWrite_clear hwf h hm, Memory.writeBytes_size ..,
    fun k hk => s.dmem.read_writeBytes_littleEndian (legalDmemAccess_backed hwf) v hk,
    fun x hx => s.dmem.read_writeBytes_littleEndian_outside v hx⟩

/-- Settles O44: the bytes are those of a write that meets no region; the record and the mark come on top. -/
theorem hazardousWriteIsPerformedAndRecorded : Obligations.HazardousWriteIsPerformedAndRecorded := by
  intro s n a v rest p h hwf he hm
  rw [wellFormed_dmemWrite] at hwf
  exact ⟨_, step_dmemWrite_hazard hwf h he hm, Memory.writeBytes_size ..,
    fun k hk => s.dmem.read_writeBytes_littleEndian (legalDmemAccess_backed hwf) v hk,
    fun x hx => s.dmem.read_writeBytes_littleEndian_outside v hx⟩

/-! ## The regions of a command (R89, R93) -/

theorem Region.overlaps_iff_meet (x y : Region) : x.overlaps y = true ↔ Meet x.base x.len y.base y.len :=
  decide_eq_true_iff

/-- An empty range meets nothing, so the base of an empty region does not matter. -/
theorem meet_congr_base {a n b b' m : Nat} (h : 0 < m → b = b') : Meet a n b m ↔ Meet a n b' m := by
  rcases Nat.eq_zero_or_pos m with rfl | hm
  · simp [Meet]
  · rw [h hm]

/-- Settles O45: overlap is sharing a byte, and each region is the one the operand registers give. -/
theorem meetingARegionIsSharingAByte : Obligations.MeetingARegionIsSharingAByte := by
  intro r op cont ho hd a n
  obtain ⟨hlen, hbase⟩ := latch_ref_region op cont r ho hd
  simp only [Latch.meets, Bool.or_eq_true, Region.overlaps_iff_meet, latch_src_region op cont r ho,
    latch_dst_region op cont r ho, hlen, meet_congr_base hbase, or_assoc]

/-! ## DMEM reads (R50, R90) -/

theorem step_dmemRead {s : State} {n : Nat} {a : Word} {rest : List Event}
    (hl : legalDmemAccess s.dmem.size n a = true) (h : s.inbox = .host (.dmemRead n a) :: rest) :
    step s = .next { s with
      inbox := rest, draws := s.draws + drawsOfRead s a.toNat n,
      response := some (.data (BitVec.ofNat 32
        (littleEndianValue ((List.range n).map fun k => readByte s a.toNat k)))) } := by
  rw [step_cons h]
  simp only [eventStep, hostStep, dmemRead, hl, if_true]
  rfl

theorem legalDmemAccess_width {m n : Nat} {a : Word} (h : legalDmemAccess m n a = true) : n ≤ 4 := by
  simp only [legalDmemAccess, Bool.and_eq_true, Bool.or_eq_true, beq_iff_eq] at h
  omega

/-- A value of at most four bytes fits the word that answers it. -/
theorem littleEndianValue_toNat {bs : List Byte} (h : bs.length ≤ 4) :
    (BitVec.ofNat 32 (littleEndianValue bs)).toNat = littleEndianValue bs := by
  rw [BitVec.toNat_ofNat, Nat.mod_eq_of_lt]
  calc littleEndianValue bs < 256 ^ bs.length := littleEndianValue_lt bs
    _ ≤ 256 ^ 4 := Nat.pow_le_pow_right (by decide) h
    _ = 2 ^ 32 := by decide

/-- Outside the destination in flight a read takes the byte DMEM holds. -/
theorem readByte_outside {s : State} {a k : Nat}
    (h : ∀ p, s.engine = .busy p → p.latch.regions.dst.contains (a + k) = false) :
    readByte s a k = s.dmem.read (a + k) := by
  cases he : s.engine with
  | idle => simp only [readByte, he]
  | busy p => simp [readByte, he, h p he]

/-- Ranges that overlap share a byte. -/
theorem Region.exists_contains_of_overlaps {a n : Nat} {y : Region}
    (h : Region.overlaps { base := a, len := n } y = true) : ∃ k < n, y.contains (a + k) = true := by
  obtain ⟨hn, hy, hay, hya⟩ : Meet a n y.base y.len := (Region.overlaps_iff_meet _ _).1 h
  refine ⟨y.base - a, by omega, decide_eq_true ?_⟩
  omega

/-- A read takes draws only where it meets the destination in flight. -/
theorem drawsOfRead_outside {s : State} {a n : Nat}
    (h : ∀ p, s.engine = .busy p → ∀ k < n, p.latch.regions.dst.contains (a + k) = false) :
    drawsOfRead s a n = 0 := by
  cases he : s.engine with
  | idle => simp only [drawsOfRead, he]
  | busy p =>
    have hno : Region.overlaps { base := a, len := n } p.latch.regions.dst = false := Bool.eq_false_iff.2 fun ho => by
      obtain ⟨k, hk, hin⟩ := Region.exists_contains_of_overlaps ho
      cases (h p he k hk).symm.trans hin
    simp only [drawsOfRead, he, hno, Bool.false_eq_true, if_false]

/-- Settles O46: byte k of the answer is the k-th byte read. -/
theorem dmemReadAnswersLittleEndian : Obligations.DmemReadAnswersLittleEndian := by
  intro s n a rest h hwf
  rw [wellFormed_dmemRead] at hwf
  have hlen : ((List.range n).map fun k => readByte s a.toNat k).length = n := by simp
  have hv := littleEndianValue_toNat (hlen.le.trans (legalDmemAccess_width hwf))
  refine ⟨_, _, step_dmemRead hwf h, ?_, fun k hk hout => ?_, fun hout => ?_⟩
  · rw [hv]
    exact (littleEndianValue_lt _).trans_eq (by rw [hlen])
  · rw [hv, littleEndianValue_byte _ k (by rwa [hlen]), List.getElem_map, List.getElem_range, readByte_outside hout]
  · rw [drawsOfRead_outside hout, Nat.add_zero]

/-! ## The end of a command in flight (R102) -/

/-- Only the engine's turn and the two resets end a command in flight. -/
theorem StepCase.end_of_command {s t : State} {p : Pending} (hc : StepCase s t) (he : s.engine = .busy p)
    (ht : t.engine = .idle) :
    ((s.inbox = [] ∨ s.inbox.head? = some .engine) ∧ t = s.popped.engineStep) ∨
    (s.inbox.head? = some .hwReset ∧ t = s.popped.hwReset) ∨
    ∃ v : Word, s.inbox.head? = some (.host (.regWrite 4 0x008#12 v)) ∧ v.getLsbD 0 = true ∧
      t = (s.popped.respond .written).softReset := by
  have hp : (s.popped.respond .written).engine = .busy p := he
  cases hc with
  | engine h => exact .inl ⟨h, rfl⟩
  | hwReset h => exact .inr (.inl ⟨h, rfl⟩)
  | softReset v h hv => exact .inr (.inr ⟨v, h, hv, rfl⟩)
  | command c _ w _ _ => rw [State.issue_busy hp] at ht; cases he.symm.trans ht
  | illegal e w _ _ => rw [State.issueIllegal_busy hp] at ht; cases he.symm.trans ht
  | hazard n a v q _ _ _ _ => cases ht
  | busError x _ _ => cases he.symm.trans ht
  | control v _ _ => cases he.symm.trans ht
  | field r v _ _ _ => cases he.symm.trans ht
  | reserved off v _ _ _ => cases he.symm.trans ht
  | regRead off _ _ => cases he.symm.trans ht
  | dmemWrite n a v _ _ _ => cases he.symm.trans ht
  | dmemRead n a _ _ v => cases he.symm.trans ht

/-- A completion touches ERR_CODE, ERR_INFO and DONE, and no other register. -/
theorem State.engineStep_busy_regs {s : State} {p : Pending} (he : s.engine = .busy p) :
    s.engineStep.regs = { s.regs with
      errCode := 0x00#8, errInfo := 0#32, irqStatus := s.regs.irqStatus ||| 0b001#3 } := by
  rw [State.engineStep_busy he, State.completeEmpty, State.storeOutput_regs]
  rfl

/-- Settles O54: each of the three ends has its registers. -/
theorem acceptedCommandEndsInSuccessOrReset : Obligations.AcceptedCommandEndsInSuccessOrReset := by
  intro s t p hstep he ht
  rcases (step_case hstep).end_of_command he ht with ⟨h, rfl⟩ | ⟨h, rfl⟩ | ⟨v, h, hv, rfl⟩
  · exact .inl ⟨h, State.engineStep_busy_regs (s := s.popped) he⟩
  · exact .inr ⟨.inl h, rfl⟩
  · have hodd : v.toNat % 2 = 1 := by simpa [BitVec.getLsbD] using hv
    exact .inr ⟨.inr ⟨v, hodd, h⟩, rfl⟩

end Sys2Proof.Machine
end

section
/-! PROOFS. The forward colour transform (41_color_forward.md): the values of a pixel and of a block, and the place of
each in the output of CSC_FWD. -/

namespace Sys2Proof.Machine

/-! ## Truncation to a byte (R113) -/

/-- A value in 0..255 is the byte it is stored as. -/
theorem ofInt_byte_toNat {x : Int} (h0 : 0 ≤ x) (h : x < 256) : ((BitVec.ofInt 8 x).toNat : Int) = x := by
  rw [BitVec.toNat_ofInt]
  omega

/-! ## The values of a pixel (R111, R112, R114) -/

theorem y10k_range (p : Pixel) : 0 ≤ y10k p ∧ y10k p ≤ 2550000 := by
  have h0 := p.c0.isLt
  have h1 := p.c1.isLt
  have h2 := p.c2.isLt
  unfold y10k
  omega

theorem u10k_range (p : Pixel) : 5000 ≤ u10k p ∧ u10k p ≤ 2424950 := by
  have h0 := p.c0.isLt
  have h1 := p.c1.isLt
  have h2 := p.c2.isLt
  unfold u10k
  omega

theorem v10k_range (p : Pixel) : 6785 ≤ v10k p ∧ v10k p ≤ 2552450 := by
  have h0 := p.c0.isLt
  have h1 := p.c1.isLt
  have h2 := p.c2.isLt
  unfold v10k
  omega

/-- The coefficients of y sum to 1, so the luma needs no clamp. -/
theorem yByte_toNat (p : Pixel) : ((yByte p).toNat : Int) = y10k p / 10000 := by
  obtain ⟨h0, h1⟩ := y10k_range p
  exact ofInt_byte_toNat (by omega) (by omega)

/-- Settles O19: the ranges are linear in the channels, and each bound is evaluated at its corner. -/
theorem forwardValueRanges : Obligations.ForwardValueRanges := by
  refine ⟨fun p => ?_, by decide⟩
  obtain ⟨hy0, hy1⟩ := y10k_range p
  obtain ⟨hu0, hu1⟩ := u10k_range p
  obtain ⟨hv0, hv1⟩ := v10k_range p
  exact ⟨hy0, hy1, hu0, hu1, hv0, hv1, yByte_toNat p⟩

/-! ## The values of a block (R115) -/

/-- The sum of four u values lies in 20000..9699800. -/
theorem uBlock_toNat (p0 p1 p2 p3 : Pixel) :
    ((uBlock p0 p1 p2 p3).toNat : Int) = (u10k p0 + u10k p1 + u10k p2 + u10k p3) / 40000 := by
  have h0 := u10k_range p0
  have h1 := u10k_range p1
  have h2 := u10k_range p2
  have h3 := u10k_range p3
  exact ofInt_byte_toNat (by omega) (by omega)

/-- The sum of four v values lies in 27140..10209800. -/
theorem vBlock_toNat (p0 p1 p2 p3 : Pixel) :
    ((vBlock p0 p1 p2 p3).toNat : Int) = (v10k p0 + v10k p1 + v10k p2 + v10k p3) / 40000 := by
  have h0 := v10k_range p0
  have h1 := v10k_range p1
  have h2 := v10k_range p2
  have h3 := v10k_range p3
  exact ofInt_byte_toNat (by omega) (by omega)

theorem uBlock_le (p0 p1 p2 p3 : Pixel) : (uBlock p0 p1 p2 p3).toNat ≤ 242 := by
  have h := uBlock_toNat p0 p1 p2 p3
  have h0 := u10k_range p0
  have h1 := u10k_range p1
  have h2 := u10k_range p2
  have h3 := u10k_range p3
  omega

/-- Settles O20: both means lie in 0..255 before they are stored. -/
theorem blockAverageThenTruncate : Obligations.BlockAverageThenTruncate :=
  fun p0 p1 p2 p3 => ⟨uBlock_toNat p0 p1 p2 p3, uBlock_le p0 p1 p2 p3, vBlock_toNat p0 p1 p2 p3⟩

/-! ## The planes of a PlanarFrame (R116) -/

/-- The U byte of block (br, bc) of the RawFrame at base `s`. -/
def blockU (M : Nat → Byte) (W s br bc : Nat) : Byte :=
  uBlock (rawPixel M W s (2 * br) (2 * bc)) (rawPixel M W s (2 * br) (2 * bc + 1))
    (rawPixel M W s (2 * br + 1) (2 * bc)) (rawPixel M W s (2 * br + 1) (2 * bc + 1))

/-- The V byte of block (br, bc) of the RawFrame at base `s`. -/
def blockV (M : Nat → Byte) (W s br bc : Nat) : Byte :=
  vBlock (rawPixel M W s (2 * br) (2 * bc)) (rawPixel M W s (2 * br) (2 * bc + 1))
    (rawPixel M W s (2 * br + 1) (2 * bc)) (rawPixel M W s (2 * br + 1) (2 * bc + 1))

section

variable {W H r c br bc : Nat} (M : Nat → Byte) (s : Nat)

theorem planarByte_luma (hr : r < H) (hc : c < W) :
    planarByte M W H s (r * W + c) = yByte (rawPixel M W s r c) := by
  rw [planarByte, if_pos (show r * W + c < lLuma W H from rowMajor_lt hr hc), rowMajor_div hc, rowMajor_mod hc]

theorem planarByte_u (hk : br * (W / 2) + bc < lChroma W H) (hc : bc < W / 2) :
    planarByte M W H s (lLuma W H + (br * (W / 2) + bc)) = blockU M W s br bc := by
  rw [planarByte, if_neg (by omega), if_pos (by omega)]
  simp only [Nat.add_sub_cancel_left, rowMajor_div hc, rowMajor_mod hc, blockU]

theorem planarByte_v (hc : bc < W / 2) :
    planarByte M W H s (lLuma W H + lChroma W H + (br * (W / 2) + bc)) = blockV M W s br bc := by
  rw [planarByte, if_neg (by omega), if_neg (by omega)]
  simp only [Nat.add_sub_cancel_left, rowMajor_div hc, rowMajor_mod hc, blockV]

end

/-! ## The bytes of the output (R111, R112, R116) -/

/-- A block of the frame has its index in a chroma plane. -/
theorem block_index_lt {W H br bc : Nat} (hW : W % 2 = 0) (hH : H % 2 = 0) (hr : br < H / 2) (hc : bc < W / 2) :
    br * (W / 2) + bc < lChroma W H := by
  rw [lChroma_even hW hH, Nat.mul_comm (H / 2)]
  exact rowMajor_lt hr hc

section

variable {L : Latch} (M : Nat → Byte) {f : Nat} (hW : GoodDim L.w) (hH : GoodDim L.h) (hf : f < L.n.toNat)

include hW hH hf

theorem fCscFwd_luma {r c : Nat} (hr : r < L.h.toNat) (hc : c < L.w.toNat) :
    (fCscFwd L M)[f * L.lPlanar + r * L.w.toNat + c]? =
      some (yByte (rawPixel M L.w.toNat (L.src.toNat + f * L.lRaw) r c)) := by
  have hj : r * L.w.toNat + c < L.lPlanar := by
    rw [Latch.lPlanar, lPlanar_even hW.2 hH.2]
    have := rowMajor_lt hr hc
    unfold lLuma
    omega
  rw [Nat.add_assoc, fCscFwd_byte L M hf hj, planarByte_luma M _ hr hc]

theorem fCscFwd_u {br bc : Nat} (hr : br < L.h.toNat / 2) (hc : bc < L.w.toNat / 2) :
    (fCscFwd L M)[f * L.lPlanar + lLuma L.w.toNat L.h.toNat + br * (L.w.toNat / 2) + bc]? =
      some (blockU M L.w.toNat (L.src.toNat + f * L.lRaw) br bc) := by
  have hk := block_index_lt hW.2 hH.2 hr hc
  have hj : lLuma L.w.toNat L.h.toNat + (br * (L.w.toNat / 2) + bc) < L.lPlanar := by
    rw [Latch.lPlanar, lPlanar_even hW.2 hH.2]
    omega
  rw [Nat.add_assoc, Nat.add_assoc, fCscFwd_byte L M hf hj, planarByte_u M _ hk hc]

theorem fCscFwd_v {br bc : Nat} (hr : br < L.h.toNat / 2) (hc : bc < L.w.toNat / 2) :
    (fCscFwd L M)[f * L.lPlanar + lLuma L.w.toNat L.h.toNat + lChroma L.w.toNat L.h.toNat
        + br * (L.w.toNat / 2) + bc]? =
      some (blockV M L.w.toNat (L.src.toNat + f * L.lRaw) br bc) := by
  have hk := block_index_lt hW.2 hH.2 hr hc
  have hj : lLuma L.w.toNat L.h.toNat + lChroma L.w.toNat L.h.toNat + (br * (L.w.toNat / 2) + bc) < L.lPlanar := by
    rw [Latch.lPlanar, lPlanar_even hW.2 hH.2]
    omega
  rw [Nat.add_assoc, Nat.add_assoc (f * _), Nat.add_assoc, fCscFwd_byte L M hf hj, planarByte_v M _ hc]

end

/-- Settles O17: the luma plane comes first in its frame, and its byte is the exact luma cut to an integer. -/
theorem cscFwdLumaBytes : Obligations.CscFwdLumaBytes := by
  intro L M f r c hW hH hf hr hc
  refine ⟨_, fCscFwd_luma M hW hH hf hr hc, ?_⟩
  zify
  exact yByte_toNat _

/-- Settles O18: the chroma planes follow the luma plane, and each byte is its block's mean. -/
theorem cscFwdChromaBytes : Obligations.CscFwdChromaBytes := by
  intro L M f br bc hW hH hf hr hc
  exact ⟨_, _, fCscFwd_u M hW hH hf hr hc, fCscFwd_v M hW hH hf hr hc, uBlock_toNat .., vBlock_toNat ..⟩

/-! ## Lanes (R117) -/

theorem rawPixel_congr {M M' : Nat → Byte} {W s r c : Nat}
    (h : ∀ k < 3, M (s + 3 * (r * W + c) + k) = M' (s + 3 * (r * W + c) + k)) :
    rawPixel M W s r c = rawPixel M' W s r c :=
  (Pixel.mk.injEq ..).mpr ⟨h 0 (by decide), h 1 (by decide), h 2 (by decide)⟩

/-- Two memories that agree on the pixels of a block give it the same chroma pair. -/
theorem chroma_congr {M M' : Nat → Byte} {W s br bc : Nat}
    (h : ∀ dr < 2, ∀ dc < 2, rawPixel M W s (2 * br + dr) (2 * bc + dc) = rawPixel M' W s (2 * br + dr) (2 * bc + dc)) :
    blockU M W s br bc = blockU M' W s br bc ∧ blockV M W s br bc = blockV M' W s br bc := by
  have h00 := h 0 (by decide) 0 (by decide)
  have h01 := h 0 (by decide) 1 (by decide)
  have h10 := h 1 (by decide) 0 (by decide)
  have h11 := h 1 (by decide) 1 (by decide)
  simp only [Nat.add_zero] at h00 h01 h10
  simp only [blockU, blockV, h00, h01, h10, h11, and_self]

/-- Settles O21: each byte of the output is a function of the pixels it is made from. -/
theorem cscFwdIsLaneWise : Obligations.CscFwdIsLaneWise := by
  intro L M M' f r c hW hH hf hr hc W H px
  refine ⟨fun h => ?_, fun h => ?_⟩
  · have hp : rawPixel M W (L.src.toNat + f * L.lRaw) r c = rawPixel M' W (L.src.toNat + f * L.lRaw) r c :=
      rawPixel_congr h
    exact (fCscFwd_luma M hW hH hf hr hc).trans (hp ▸ (fCscFwd_luma M' hW hH hf hr hc).symm)
  · intro j
    have hbr : r / 2 < L.h.toNat / 2 := by have := hH.2; omega
    have hbc : c / 2 < L.w.toNat / 2 := by have := hW.2; omega
    obtain ⟨hu, hv⟩ := chroma_congr (M := M) (M' := M') (W := W) (s := L.src.toNat + f * L.lRaw)
      (br := r / 2) (bc := c / 2) fun dr hdr dc hdc => rawPixel_congr fun k hk => by
        rw [Nat.mul_comm 2, Nat.mul_comm 2]
        exact h dr hdr dc hdc k hk
    have hj : j + W * H / 4 = f * L.lPlanar + lLuma W H + lChroma W H + r / 2 * (W / 2) + c / 2 := by
      rw [Nat.add_right_comm, Nat.add_right_comm (f * (W * H * 3 / 2) + W * H)]
      rfl
    constructor
    · exact (fCscFwd_u M hW hH hf hbr hbc).trans (hu ▸ (fCscFwd_u M' hW hH hf hbr hbc).symm)
    · rw [hj, fCscFwd_v M hW hH hf hbr hbc, fCscFwd_v M' hW hH hf hbr hbc, hv]

end Sys2Proof.Machine
end

section
/-! PROOFS. The inverse colour transform (42_color_inverse.md): the clamp, the scaled values of a pixel, and the place
of each channel in the output of CSC_INV. -/

namespace Sys2Proof.Machine

/-! ## Clamp and truncation (R123, R124) -/

/-- What lies between the two clamps is truncated to a value that fits a byte. -/
theorem chan_toNat (x : Int) :
    ((chan x).toNat : Int) = if x < 0 then 0 else if 255000 ≤ x then 255 else x / 1000 := by
  unfold chan
  split_ifs
  · rfl
  · rfl
  · exact ofInt_byte_toNat (by omega) (by omega)

/-- The clamp after floor division. -/
theorem chan_eq_clamp_ediv (x : Int) : ((chan x).toNat : Int) = max 0 (min 255 (x / 1000)) := by
  rw [chan_toNat]
  split_ifs <;> omega

/-- The two truncations differ on negative values only, and there the clamp takes both to 0. -/
theorem clamp_tdiv_eq_clamp_ediv (x : Int) : max 0 (min 255 (Int.tdiv x 1000)) = max 0 (min 255 (x / 1000)) := by
  rcases le_or_gt 0 x with h | h
  · rw [Int.tdiv_eq_ediv_of_nonneg h]
  · have hn : 0 ≤ Int.tdiv (-x) 1000 := Int.tdiv_nonneg (by omega) (by decide)
    have ht : Int.tdiv x 1000 ≤ 0 := by rwa [Int.neg_tdiv, Int.neg_nonneg] at hn
    have he : x / 1000 ≤ 0 := Int.ediv_nonpos_of_nonpos_of_neg h.le (by decide)
    rw [max_eq_left (min_le_of_right_le ht), max_eq_left (min_le_of_right_le he)]

/-- Settles O23: the clamp makes floor and truncation toward zero agree. -/
theorem clampAndTruncateCommute : Obligations.ClampAndTruncateCommute :=
  fun x => ⟨chan_eq_clamp_ediv x, (chan_eq_clamp_ediv x).trans (clamp_tdiv_eq_clamp_ediv x).symm⟩

/-- A whole number of thousands from a byte is neither clamped nor rounded. -/
theorem chan_scaled_byte (y : Byte) : chan (1000 * y.toNat) = y := by
  have hy := y.isLt
  refine BitVec.eq_of_toNat_eq ?_
  zify
  rw [chan_eq_clamp_ediv, Int.mul_ediv_cancel_left _ (by decide)]
  omega

/-! ## The scaled values of a pixel (R122, R125) -/

theorem r1k_range (p : Yuv) : -179456 ≤ r1k p ∧ r1k p ≤ 433054 := by
  have hy := p.y.isLt
  have hv := p.v.isLt
  unfold r1k
  omega

theorem g1k_range (p : Yuv) : -134366 ≤ g1k p ∧ g1k p ≤ 390424 := by
  have hy := p.y.isLt
  have hu := p.u.isLt
  have hv := p.v.isLt
  unfold g1k
  omega

theorem b1k_range (p : Yuv) : -226816 ≤ b1k p ∧ b1k p ≤ 480044 := by
  have hy := p.y.isLt
  have hu := p.u.isLt
  unfold b1k
  omega

/-- Settles O24: the scaled values are linear in the bytes, and each bound is evaluated at its corner, where red does not
read u and blue does not read v. -/
theorem inverseValueRanges : Obligations.InverseValueRanges := by
  refine ⟨fun p => ?_, fun x => by simp [r1k, b1k], by decide⟩
  obtain ⟨hr0, hr1⟩ := r1k_range p
  obtain ⟨hg0, hg1⟩ := g1k_range p
  exact ⟨hr0, hr1, hg0, hg1, b1k_range p⟩

/-! ## Channels (R128) -/

@[simp] theorem rgbChannel_red (p : Yuv) : rgbChannel 0 p = chan (r1k p) := rfl
@[simp] theorem rgbChannel_green (p : Yuv) : rgbChannel 1 p = chan (g1k p) := rfl
@[simp] theorem rgbChannel_blue (k : Nat) (p : Yuv) : rgbChannel (k + 2) p = chan (b1k p) := rfl

/-- Settles O25: with both chroma bytes at the centre each scaled value is 1000·y. -/
theorem neutralChromaReturnsTheLuma : Obligations.NeutralChromaReturnsTheLuma := by
  intro y k
  have hr : r1k ⟨y, 128, 128⟩ = 1000 * y.toNat := by simp [r1k]
  have hg : g1k ⟨y, 128, 128⟩ = 1000 * y.toNat := by simp [g1k]
  have hb : b1k ⟨y, 128, 128⟩ = 1000 * y.toNat := by simp [b1k]
  match k with
  | 0 => rw [rgbChannel_red, hr, chan_scaled_byte]
  | 1 => rw [rgbChannel_green, hg, chan_scaled_byte]
  | k + 2 => rw [rgbChannel_blue, hb, chan_scaled_byte]

/-! ## The bytes of the output (R119, R120, R128) -/

/-- A RawFrame holds the three channels of its pixels one after the other, row by row. -/
theorem rawByte_channel (M : Nat → Byte) {W H r c k : Nat} (s : Nat) (hc : c < W) (hk : k < 3) :
    rawByte M W H s (3 * (r * W + c) + k) = rgbChannel k (planarPixel M W H s r c) := by
  have hdiv : (3 * (r * W + c) + k) / 3 = r * W + c := by omega
  have hmod : (3 * (r * W + c) + k) % 3 = k := by omega
  rw [rawByte, hdiv, hmod, rowMajor_div hc, rowMajor_mod hc]

/-- Channel k of pixel (r, c) of frame f in the output of CSC_INV. -/
theorem fCscInv_channel {L : Latch} (M : Nat → Byte) {f r c k : Nat} (hf : f < L.n.toNat) (hr : r < L.h.toNat)
    (hc : c < L.w.toNat) (hk : k < 3) :
    (fCscInv L M)[f * L.lRaw + 3 * (r * L.w.toNat + c) + k]? =
      some (rgbChannel k (planarPixel M L.w.toNat L.h.toNat (L.src.toNat + f * L.lPlanar) r c)) := by
  have hj : 3 * (r * L.w.toNat + c) + k < L.lRaw := by
    have := rowMajor_lt hr hc
    unfold Latch.lRaw lRaw
    omega
  rw [Nat.add_assoc, fCscInv_byte L M hf hj, rawByte_channel M _ hc hk]

/-- Settles O22: each channel is at its place in the RawFrame and is the clamped and truncated scaled value. -/
theorem cscInvPixelBytes : Obligations.CscInvPixelBytes := by
  intro L M f r c _ _ hf hr hc
  exact ⟨_, _, _, fCscInv_channel M hf hr hc (k := 0) (by decide), fCscInv_channel M hf hr hc (k := 1) (by decide),
    fCscInv_channel M hf hr hc (k := 2) (by decide), chan_toNat _, chan_toNat _, chan_toNat _⟩

/-! ## Lanes (R129) -/

/-- Two memories that agree on a pixel's luma byte and its block's chroma pair give it the same three bytes. -/
theorem planarPixel_congr {M M' : Nat → Byte} {W H s r c : Nat} (hy : M (s + r * W + c) = M' (s + r * W + c))
    (hu : M (s + lLuma W H + r / 2 * (W / 2) + c / 2) = M' (s + lLuma W H + r / 2 * (W / 2) + c / 2))
    (hv : M (s + lLuma W H + lChroma W H + r / 2 * (W / 2) + c / 2) =
      M' (s + lLuma W H + lChroma W H + r / 2 * (W / 2) + c / 2)) :
    planarPixel M W H s r c = planarPixel M' W H s r c :=
  (Yuv.mk.injEq ..).mpr ⟨hy, hu, hv⟩

/-- Settles O26: each byte of the output is a channel of the pixel it is made from. -/
theorem cscInvIsLaneWise : Obligations.CscInvIsLaneWise := by
  intro L M M' f r c k _ _ hf hr hc hk W H s hy hu hv
  have hp : planarPixel M W H s r c = planarPixel M' W H s r c := planarPixel_congr hy hu hv
  calc (fCscInv L M)[f * L.lRaw + 3 * (r * W + c) + k]?
    _ = some (rgbChannel k (planarPixel M W H s r c)) := fCscInv_channel M hf hr hc hk
    _ = some (rgbChannel k (planarPixel M' W H s r c)) := by rw [hp]
    _ = (fCscInv L M')[f * L.lRaw + 3 * (r * W + c) + k]? := (fCscInv_channel M' hf hr hc hk).symm

end Sys2Proof.Machine
end

section
/-! PROOFS. The temporal delta (43_temporal_delta.md): the two per-byte units, each output byte from its predecessor,
and sequences of frames read back or split. -/

namespace Sys2Proof.Machine

/-! ## The predictor and the reconstructor (R130, R131, R133) -/

@[simp] theorem recon_pred (x p : Byte) : recon (pred x p) p = x := add_sub_cancel p x

@[simp] theorem pred_recon (e q : Byte) : pred (recon e q) q = e := add_sub_cancel_left q e

@[simp] theorem pred_self (x : Byte) : pred x x = 0 := sub_self x

@[simp] theorem pred_zero (x : Byte) : pred x 0#8 = x := sub_zero x

@[simp] theorem recon_zero (e : Byte) : recon e 0#8 = e := zero_add e

theorem pred_toNat (x p : Byte) : ((pred x p).toNat : Int) = ((x.toNat : Int) - p.toNat) % 256 := by
  rw [pred, BitVec.toNat_sub]
  have := p.isLt
  omega

theorem recon_toNat (e q : Byte) : (recon e q).toNat = (q.toNat + e.toNat) % 256 := BitVec.toNat_add q e

/-- Settles O29: subtraction and addition of bytes wrap, and are inverse in the group of bytes. -/
theorem deltaUnitsAreInverse : Obligations.DeltaUnitsAreInverse :=
  ⟨recon_pred, pred_recon, pred_self, pred_toNat, recon_toNat⟩

/-! ## The predecessor of a byte (R134, R135, R136)

With base 0 for a keyframe both commands apply their unit to every byte, frame 0 included. -/

/-- The byte frame 0 is diffed against or added to: the reference byte with CONT = 1, and 0 with CONT = 0. -/
def baseByte (L : Latch) (M : Nat → Byte) (j : Nat) : Byte := if L.cont then referenceByte L M j else 0#8

/-- The byte that DELTA_FWD subtracts from byte j of frame i. -/
def fwdPredecessor (L : Latch) (M : Nat → Byte) : Nat → Nat → Byte
  | 0, j => baseByte L M j
  | i + 1, j => sourceByte L M i j

/-- The byte that DELTA_INV adds to byte j of frame i. -/
def invPredecessor (L : Latch) (M : Nat → Byte) : Nat → Nat → Byte
  | 0, j => baseByte L M j
  | i + 1, j => deltaInvByte L M i j

theorem baseByte_cont {L : Latch} (hc : L.cont = true) (M : Nat → Byte) (j : Nat) :
    baseByte L M j = referenceByte L M j := if_pos hc

theorem baseByte_key {L : Latch} (hc : L.cont = false) (M : Nat → Byte) (j : Nat) : baseByte L M j = 0#8 := by
  rw [baseByte, hc]
  rfl

theorem deltaFwdByte_eq_pred (L : Latch) (M : Nat → Byte) (i j : Nat) :
    deltaFwdByte L M i j = pred (sourceByte L M i j) (fwdPredecessor L M i j) := by
  cases i with
  | zero => cases hc : L.cont <;> simp [deltaFwdByte, fwdPredecessor, baseByte, hc]
  | succ i => rfl

theorem deltaInvByte_eq_recon (L : Latch) (M : Nat → Byte) (i j : Nat) :
    deltaInvByte L M i j = recon (sourceByte L M i j) (invPredecessor L M i j) := by
  cases i with
  | zero => cases hc : L.cont <;> simp [deltaInvByte, invPredecessor, baseByte, hc]
  | succ i => rfl

/-! ## The bytes of the output -/

/-- Settles O27: each byte is the difference from its predecessor, which is 0 at a keyframe. -/
theorem deltaFwdBytes : Obligations.DeltaFwdBytes := by
  intro L M i j LP hi hj
  refine ⟨_, fDeltaFwd_byte L M hi hj, ?_⟩
  rw [deltaFwdByte_eq_pred]
  cases i with
  | zero =>
    have hs : sourceByte L M 0 j = M (L.src.toNat + j) := by simp [sourceByte]
    refine ⟨fun _ hc => ?_, fun _ hc => ?_, fun h => absurd h (by decide)⟩
    · rw [fwdPredecessor, baseByte_key hc, pred_zero, hs]
    · rw [pred_toNat, fwdPredecessor, baseByte_cont hc, hs, referenceByte]
  | succ i => exact ⟨nofun, nofun, fun _ => pred_toNat _ _⟩

/-- A reconstructed byte is the base byte plus the deltas up to it, modulo 256. -/
theorem deltaInvByte_toNat (L : Latch) (M : Nat → Byte) (i j : Nat) :
    (deltaInvByte L M i j).toNat =
      ((baseByte L M j).toNat + ((List.range (i + 1)).map fun t => (sourceByte L M t j).toNat).sum) % 256 := by
  induction i with
  | zero =>
    rw [deltaInvByte_eq_recon, recon_toNat, invPredecessor]
    simp
  | succ i ih =>
    rw [deltaInvByte_succ, recon_toNat, ih, List.sum_range_succ _ (i + 1), Nat.mod_add_mod, Nat.add_assoc]

/-- Settles O28: the sum of `deltaInvByte_toNat`, with the base byte written out. -/
theorem deltaInvBytesArePrefixSums : Obligations.DeltaInvBytesArePrefixSums := by
  intro L M i j LP hi hj
  have hb : (baseByte L M j).toNat = if L.cont then (M (L.ref.toNat + j)).toNat else 0 := by
    rw [baseByte, apply_ite BitVec.toNat]
    rfl
  exact ⟨_, fDeltaInv_byte L M hi hj, hb ▸ deltaInvByte_toNat L M i j⟩

/-! ## Lanes and later frames (R139, R141) -/

/-- The deltas from frame a on are those of a command that finds these frames at its source and, as its base, the
predecessor of frame a. -/
theorem deltaFwdByte_shift {L L' : Latch} {M M' : Nat → Byte} {a i j : Nat}
    (hs : ∀ t ≤ i, sourceByte L' M' t j = sourceByte L M (a + t) j)
    (hb : baseByte L' M' j = fwdPredecessor L M a j) :
    deltaFwdByte L' M' i j = deltaFwdByte L M (a + i) j := by
  have hp : fwdPredecessor L' M' i j = fwdPredecessor L M (a + i) j := by
    cases i with
    | zero => exact hb
    | succ i => exact hs i i.le_succ
  rw [deltaFwdByte_eq_pred, deltaFwdByte_eq_pred, hs i le_rfl, hp]

/-- The same for the reconstructed frames. -/
theorem deltaInvByte_shift {L L' : Latch} {M M' : Nat → Byte} {a i j : Nat}
    (hs : ∀ t ≤ i, sourceByte L' M' t j = sourceByte L M (a + t) j)
    (hb : baseByte L' M' j = invPredecessor L M a j) :
    deltaInvByte L' M' i j = deltaInvByte L M (a + i) j := by
  induction i with
  | zero => rw [deltaInvByte_eq_recon, deltaInvByte_eq_recon, hs 0 le_rfl, invPredecessor, hb, Nat.add_zero]
  | succ i ih =>
    rw [← Nat.add_assoc, deltaInvByte_succ, deltaInvByte_succ, hs (i + 1) le_rfl, ih fun t ht => hs t (by omega),
      Nat.add_assoc]

/-- Settles O33: the two shift lemmas with a = 0, each on the one lane j. -/
theorem deltaIsLaneWise : Obligations.DeltaIsLaneWise := by
  intro L M M' i j LP hi hj hs href
  have hsrc : ∀ t ≤ i, sourceByte L M t j = sourceByte L M' (0 + t) j := fun t ht => by
    rw [Nat.zero_add]
    exact hs t (by omega)
  have hbase : baseByte L M j = baseByte L M' j := by
    rw [baseByte, baseByte, referenceByte, referenceByte, href]
  show (fDeltaFwd L M)[i * L.lPlanar + j]? = (fDeltaFwd L M')[i * L.lPlanar + j]? ∧
    (fDeltaInv L M)[i * L.lPlanar + j]? = (fDeltaInv L M')[i * L.lPlanar + j]?
  constructor
  · rw [fDeltaFwd_byte L M hi hj, fDeltaFwd_byte L M' hi hj, deltaFwdByte_shift (a := 0) hsrc hbase, Nat.zero_add]
  · rw [fDeltaInv_byte L M hi hj, fDeltaInv_byte L M' hi hj, deltaInvByte_shift (a := 0) hsrc hbase, Nat.zero_add]

/-! ## Sequences of frames -/

/-- The bytes g f j of n frames of len bytes, frame by frame: the form of both outputs. -/
def frames (n len : Nat) (g : Nat → Nat → Byte) : List Byte :=
  (List.range (n * len)).map fun k => g (k / len) (k % len)

theorem fDeltaFwd_eq_frames (L : Latch) (M : Nat → Byte) :
    fDeltaFwd L M = frames L.n.toNat L.lPlanar (deltaFwdByte L M) := rfl

theorem fDeltaInv_eq_frames (L : Latch) (M : Nat → Byte) :
    fDeltaInv L M = frames L.n.toNat L.lPlanar (deltaInvByte L M) := rfl

theorem frames_congr {n len : Nat} {g g' : Nat → Nat → Byte} (h : ∀ f < n, ∀ j < len, g f j = g' f j) :
    frames n len g = frames n len g' := by
  refine List.map_congr_left fun k hk => ?_
  have hk : k < n * len := List.mem_range.1 hk
  have hlen : 0 < len := Nat.pos_of_mul_pos_left (Nat.zero_lt_of_lt hk)
  exact h _ ((Nat.div_lt_iff_lt_mul hlen).2 hk) _ (Nat.mod_lt k hlen)

/-- A sequence of a + b frames is its first a frames followed by the next b. -/
theorem frames_add (a b len : Nat) (g : Nat → Nat → Byte) :
    frames (a + b) len g = frames a len g ++ frames b len fun f j => g (a + f) j := by
  rw [frames, Nat.add_mul, List.range_add, List.map_append, List.map_map]
  refine congrArg _ (List.map_congr_left fun k hk => ?_)
  have hlen : 0 < len := Nat.pos_of_mul_pos_left (Nat.zero_lt_of_lt (List.mem_range.1 hk))
  rw [Function.comp_apply, Nat.mul_comm a, Nat.mul_add_div hlen, Nat.mul_add_mod]

/-- The last b of a + b frames may be made by another function that agrees with them. -/
theorem frames_split {n a b len len' : Nat} {g g' : Nat → Nat → Byte} (hn : n = a + b) (hlen : len' = len)
    (h : ∀ f < b, ∀ j < len, g' f j = g (a + f) j) :
    frames n len g = frames a len g ++ frames b len' g' := by
  rw [hn, frames_add, hlen, frames_congr h]

/-- The source frames, one after the other, are the bytes from L.SRC on. -/
theorem frames_sourceByte (L : Latch) (M : Nat → Byte) (n : Nat) :
    frames n L.lPlanar (sourceByte L M) = (List.range (n * L.lPlanar)).map fun k => M (L.src.toNat + k) := by
  refine List.map_congr_left fun k _ => ?_
  rw [sourceByte, Nat.add_assoc, Nat.div_add_mod']

theorem lPlanar_congr {L L' : Latch} (hw : L'.w = L.w) (hh : L'.h = L.h) : L'.lPlanar = L.lPlanar := by
  rw [Latch.lPlanar, hw, hh, Latch.lPlanar]

/-! ## The inverse law (R140) -/

/-- Where DELTA_INV finds the deltas of DELTA_FWD and its base byte, it reconstructs the source byte. -/
theorem deltaInvByte_of_deltaFwdByte {L L' : Latch} {M M' : Nat → Byte} {i j : Nat}
    (hs : ∀ t ≤ i, sourceByte L' M' t j = deltaFwdByte L M t j) (hb : baseByte L' M' j = baseByte L M j) :
    deltaInvByte L' M' i j = sourceByte L M i j := by
  induction i with
  | zero =>
    rw [deltaInvByte_eq_recon, hs 0 le_rfl, deltaFwdByte_eq_pred, invPredecessor, fwdPredecessor, hb, recon_pred]
  | succ i ih =>
    rw [deltaInvByte_succ, hs (i + 1) le_rfl, deltaFwdByte_succ, ih fun t ht => hs t (by omega), recon_pred]

/-- Settles O30: each byte is reconstructed from its delta and the byte before it, frame by frame. -/
theorem deltaInverseLaw : Obligations.DeltaInverseLaw := by
  intro L L' M M' hw hh hn hc hout href
  have hLP : L'.lPlanar = L.lPlanar := lPlanar_congr hw hh
  have hsrc : ∀ i < L.n.toNat, ∀ j < L.lPlanar, sourceByte L' M' i j = deltaFwdByte L M i j := by
    intro i hi j hj
    obtain ⟨hk, hbyte⟩ := List.getElem?_eq_some_iff.1 (fDeltaFwd_byte L M hi hj)
    rw [sourceByte, hLP, Nat.add_assoc, hout _ hk, hbyte]
  have hbase : ∀ j < L.lPlanar, baseByte L' M' j = baseByte L M j := by
    intro j hj
    cases hcont : L.cont with
    | false => rw [baseByte_key hcont, baseByte_key (hc.trans hcont)]
    | true =>
      rw [baseByte_cont hcont, baseByte_cont (hc.trans hcont)]
      exact href hcont j hj
  calc fDeltaInv L' M'
    _ = frames L.n.toNat L.lPlanar (deltaInvByte L' M') := by rw [fDeltaInv_eq_frames, hn, hLP]
    _ = frames L.n.toNat L.lPlanar (sourceByte L M) := frames_congr fun i hi j hj =>
      deltaInvByte_of_deltaFwdByte (fun t ht => hsrc t (by omega) j hj) (hbase j hj)
    _ = _ := frames_sourceByte L M L.n.toNat

/-! ## Split sequences (R139, R175) -/

/-- A copy of the frames from frame a on, read frame by frame. -/
theorem sourceByte_of_copy {L L' : Latch} {M M' : Nat → Byte} {a n : Nat} (hLP : L'.lPlanar = L.lPlanar)
    (hcopy : ∀ k < n * L.lPlanar, M' (L'.src.toNat + k) = M (L.src.toNat + a * L.lPlanar + k))
    {i j : Nat} (hi : i < n) (hj : j < L.lPlanar) : sourceByte L' M' i j = sourceByte L M (a + i) j := by
  rw [Nat.mul_comm] at hcopy
  rw [sourceByte, hLP, Nat.add_assoc, hcopy _ (Nat.mul_comm .. ▸ rowMajor_lt hi hj), sourceByte, Nat.add_mul]
  simp only [Nat.add_assoc]

/-- A byte of DELTA_FWD does not depend on the number of frames or on the destination. -/
theorem deltaFwdByte_with_n_dst (L : Latch) (n : BitVec 16) (d : Word) (M : Nat → Byte) :
    deltaFwdByte { L with n := n, dst := d } M = deltaFwdByte L M := rfl

/-- Neither does a byte of DELTA_INV. -/
theorem deltaInvByte_with_n_dst (L : Latch) (n : BitVec 16) (d : Word) (M : Nat → Byte) :
    deltaInvByte { L with n := n, dst := d } M = deltaInvByte L M := by
  funext i j
  induction i with
  | zero => rfl
  | succ i ih => rw [deltaInvByte_succ, deltaInvByte_succ, ih]; rfl

/-- Settles O31: the second command's base is the original frame a - 1, the predecessor of frame a. -/
theorem splitForwardDeltaEqualsWhole : Obligations.SplitForwardDeltaEqualsWhole := by
  intro L L1 L2 M M' LP ha hn h1 hw hh hc hcopy href
  have hLP : L2.lPlanar = L.lPlanar := lPlanar_congr hw hh
  have hbase : ∀ j < L.lPlanar, baseByte L2 M' j = fwdPredecessor L M L1.n.toNat j := by
    intro j hj
    obtain ⟨a, han⟩ := Nat.exists_eq_add_of_le' ha
    rw [baseByte_cont hc, referenceByte, href j hj, han]
    rfl
  have hfirst : fDeltaFwd L1 M = frames L1.n.toNat L.lPlanar (deltaFwdByte L M) := by
    rw [h1, fDeltaFwd_eq_frames, deltaFwdByte_with_n_dst]
    rfl
  rw [hfirst]
  exact frames_split hn hLP fun i hi j hj =>
    deltaFwdByte_shift (fun t ht => sourceByte_of_copy hLP hcopy (by omega) hj) (hbase j hj)

/-- Settles O32: the second command's base is the reconstructed frame a - 1, the predecessor of frame a. -/
theorem splitInverseDeltaEqualsWhole : Obligations.SplitInverseDeltaEqualsWhole := by
  intro L L1 L2 M M' LP ha hn h1 hw hh hc hcopy href
  have hLP : L2.lPlanar = L.lPlanar := lPlanar_congr hw hh
  have hfirst : fDeltaInv L1 M = frames L1.n.toNat L.lPlanar (deltaInvByte L M) := by
    rw [h1, fDeltaInv_eq_frames, deltaInvByte_with_n_dst]
    rfl
  have hbase : ∀ j < L.lPlanar, baseByte L2 M' j = invPredecessor L M L1.n.toNat j := by
    intro j hj
    have hlast := href j hj
    rw [hfirst] at hlast
    have hbyte := (frames_getElem (deltaInvByte L M) (Nat.sub_lt ha Nat.one_pos) hj).symm.trans hlast
    obtain ⟨a, han⟩ := Nat.exists_eq_add_of_le' ha
    rw [baseByte_cont hc, referenceByte, ← Option.some.inj hbyte, han]
    rfl
  rw [hfirst]
  exact frames_split hn hLP fun i hi j hj =>
    deltaInvByte_shift (fun t ht => sourceByte_of_copy hLP hcopy (by omega) hj) (hbase j hj)

end Sys2Proof.Machine
end

section
/-! PROOFS. Exceptions (60_exceptions.md): the bus error, the actions of the host that fault, and the completion after
a hazard. -/

namespace Sys2Proof.Machine

/-! ## The bus error (R157) -/

/-- Each kind of transaction is checked before anything of it is performed. -/
theorem hostStep_illegal {s : State} {x : Transaction} (hx : x.wellFormed s.dmem.size = false) :
    hostStep x s = .next (s.busError x) := by
  cases x with
  | regWrite n off v =>
    rw [wellFormed_regWrite] at hx
    simp only [hostStep, mmioWrite, hx, Bool.false_eq_true, if_false]
  | regRead n off =>
    rw [wellFormed_regRead] at hx
    simp only [hostStep, mmioRead, hx, Bool.false_eq_true, if_false]
  | dmemWrite n a v =>
    rw [wellFormed_dmemWrite] at hx
    simp only [hostStep, dmemWrite, hx, Bool.false_eq_true, if_false]
  | dmemRead n a =>
    rw [wellFormed_dmemRead] at hx
    simp only [hostStep, dmemRead, hx, Bool.false_eq_true, if_false]

/-- Settles O42: the event is taken, and all the rest of the step is the bus error. -/
theorem illegalTransactionIsABusError : Obligations.IllegalTransactionIsABusError := by
  intro s x rest h hx
  rw [step_cons h]
  exact hostStep_illegal (s := { s with inbox := rest }) hx

/-! ## The forbidden actions (R157, R158) -/

/-- What the spec forbids the host in a state: an ill-formed transaction (R157), and a DMEM write that meets a region of
the command in flight (R158). -/
def State.Forbids (s : State) (x : Transaction) : Prop :=
  x.wellFormed s.dmem.size = false ∨
    ∃ n a v p, x = .dmemWrite n a v ∧ s.engine = .busy p ∧ p.latch.meets a.toNat n = true

/-- A step keeps the fault record unless it takes a forbidden action. -/
theorem StepCase.fault_kept_or_forbidden {s t : State} (hc : StepCase s t) :
    t.fault = s.fault ∨ ∃ x, s.inbox.head? = some (.host x) ∧ s.Forbids x := by
  cases hc with
  | busError x h hx => exact .inr ⟨x, h, .inl hx⟩
  | hazard n a v p h _ he hm => exact .inr ⟨_, h, .inr ⟨n, a, v, p, rfl, he, hm⟩⟩
  | engine _ => exact .inl (State.engineStep_fault _)
  | softReset v _ _ => exact .inl (State.softReset_fault _)
  | command c _ w _ _ => exact .inl (State.issue_fault ..)
  | illegal e w _ _ => exact .inl (State.issueIllegal_fault ..)
  | hwReset _ => exact .inl rfl
  | control v _ _ => exact .inl rfl
  | field r v _ _ _ => exact .inl rfl
  | reserved off v _ _ _ => exact .inl rfl
  | regRead off _ _ => exact .inl rfl
  | dmemWrite n a v _ _ _ => exact .inl rfl
  | dmemRead n a _ _ v => exact .inl rfl

/-- A forbidden action leaves a fault on record: its own, or the one that stood before it. -/
theorem step_forbidden_faulted {s t : State} {x : Transaction} {rest : List Event}
    (h : s.inbox = .host x :: rest) (hx : s.Forbids x) (hstep : step s = .next t) : t.Faulted := by
  have hrecord : ∃ f, t.fault = s.fault.or (some f) := by
    cases hwf : x.wellFormed s.dmem.size with
    | false =>
      cases hstep.symm.trans (illegalTransactionIsABusError s x rest h hwf)
      exact ⟨_, rfl⟩
    | true =>
      rcases hx with hill | ⟨n, a, v, p, rfl, he, hm⟩
      · cases hwf.symm.trans hill
      · rw [wellFormed_dmemWrite] at hwf
        cases hstep.symm.trans (step_dmemWrite_hazard hwf h he hm)
        exact ⟨_, rfl⟩
  obtain ⟨f, hf⟩ := hrecord
  rw [State.Faulted, hf]
  simp

/-- Settles O52: a record that was empty and is no longer was changed by a forbidden action, and each of those leaves
one. -/
theorem onlyForbiddenActionsFault : Obligations.OnlyForbiddenActionsFault := by
  intro s t hclean hstep
  constructor
  · intro hfaulted
    rcases (step_case hstep).fault_kept_or_forbidden with hkept | ⟨x, h, hx⟩
    · exact absurd (hkept.trans hclean) hfaulted
    · exact ⟨x, _, List.eq_cons_of_mem_head? h, hx⟩
  · rintro ⟨x, rest, h, hx⟩
    exact step_forbidden_faulted h hx hstep

/-! ## Completion after a hazard (R101, R158) -/

/-- The completion of a marked command fills its destination with draws. -/
theorem step_completion_hazard {s : State} {p : Pending} (he : s.engine = .busy p) (hz : p.hazard = true)
    (h : s.inbox = [] ∨ s.inbox.head? = some .engine) :
    step s = .next { s with
      inbox := s.inbox.tail, engine := .idle, draws := s.draws + p.latch.regions.dst.len,
      dmem := s.dmem.writeBytes p.latch.regions.dst.base (drawn s.draws p.latch.regions.dst.len),
      regs := { s.regs with
        errCode := 0x00#8, errInfo := 0#32, irqStatus := s.regs.irqStatus ||| 0b001#3 } } := by
  rw [step_engine_turn h, State.engineStep_busy (s := s.popped) he, State.storeOutput_hazard hz]
  rfl

theorem Region.outside_of_not_contains {x : Region} {a : Nat} (h : x.contains a = false) :
    a < x.base ∨ x.base + x.len ≤ a := by
  have hn := of_decide_eq_false h
  omega

/-- Settles O57: the draws are one run of writes that covers the destination and no more. -/
theorem completionAfterAHazardIsUnspecified : Obligations.CompletionAfterAHazardIsUnspecified := by
  intro s p he hz h
  refine ⟨_, step_completion_hazard he hz h, Memory.writeBytes_size .., fun k hk hbacked => ?_, fun a ha => ?_⟩
  · rw [s.dmem.read_writeBytes_inside _ (by rwa [drawn_length]) hbacked, drawn_getElem]
  · exact s.dmem.read_writeBytes_outside _ (by rw [drawn_length]; exact Region.outside_of_not_contains ha)

end Sys2Proof.Machine
end

section
/-! PROOFS. Reset and hazards (70_reset_and_hazards.md): what the two resets leave, the first command after reset, and
how every run comes to rest. -/

namespace Sys2Proof.Machine

/-! ## The end of every run (R179, R182) -/

/-- A step takes the next event and puts none in its place. -/
theorem StepCase.inbox_eq_tail {s t : State} (hc : StepCase s t) : t.inbox = s.inbox.tail := by
  cases hc with
  | engine _ => exact State.engineStep_inbox _
  | softReset v _ _ => exact State.softReset_inbox _
  | command c _ w _ _ => exact State.issue_inbox ..
  | illegal e w _ _ => exact State.issueIllegal_inbox ..
  | _ => rfl

/-- Settles O58, by induction on the pending events: each step takes one, and with none left the engine completes. -/
theorem everyRunComesToRest : Obligations.EveryRunComesToRest := by
  intro s
  induction h : s.inbox generalizing s with
  | nil =>
    exact ⟨s.engineStep, run_succ core 0 (step_nil h), (State.engineStep_inbox s).trans h, State.engineStep_engine s⟩
  | cons e rest ih =>
    obtain ⟨t, hstep, hc⟩ := step_total s
    have ht : t.inbox = rest := by rw [hc.inbox_eq_tail, h, List.tail_cons]
    obtain ⟨u, hrun, hrest⟩ := ih t ht
    exact ⟨u, (run_succ core (rest.length + 1) hstep).trans hrun, hrest⟩

/-! ## SOFT_RESET (R165) -/

/-- Settles O34: with no command in flight nothing is aborted. -/
theorem softResetWhileIdleResetsRegisters : Obligations.SoftResetWhileIdleResetsRegisters :=
  fun s he => (exec_softReset s).trans (congrArg Host.Outcome.next (State.softReset_idle he))

theorem State.drawDestination_read_inside (s : State) {L : Latch} {k : Nat} (hk : k < L.regions.dst.len)
    (hbacked : L.regions.dst.base + k < s.dmem.size) :
    (s.drawDestination L).dmem.read (L.regions.dst.base + k) = Config.draw (s.draws + k) := by
  rw [State.drawDestination_dmem, s.dmem.read_writeBytes_inside _ (by rwa [drawn_length]) hbacked, drawn_getElem]

theorem State.drawDestination_read_outside (s : State) {L : Latch} {a : Nat}
    (ha : L.regions.dst.contains a = false) : (s.drawDestination L).dmem.read a = s.dmem.read a :=
  s.dmem.read_writeBytes_outside _ (by rw [drawn_length]; exact Region.outside_of_not_contains ha)

/-- Settles O35: the abort draws the destination and no other byte. -/
theorem softResetAbortsTheCommand : Obligations.SoftResetAbortsTheCommand := by
  intro s p he
  refine ⟨(s.drawDestination p.latch).dmem, ?_, Memory.writeBytes_size .., fun a ha => ?_, fun k hk hbacked => ?_⟩
  · rw [exec_softReset, State.softReset_busy he]
    rfl
  · exact s.drawDestination_read_outside ha
  · exact s.drawDestination_read_inside hk hbacked

/-! ## A hardware reset (R164, R166) -/

theorem step_hwReset {s : State} {rest : List Event} (h : s.inbox = .hwReset :: rest) :
    step s = .next (State.hwReset { s with inbox := rest }) := step_cons h

/-- With no flag raised the interrupt line is low. -/
theorem State.irq_of_regs_reset {s : State} (h : s.regs = Regs.reset) : s.irq = false := by
  rw [State.irq, h]
  rfl

/-- Settles O36: DMEM forgets every written byte, and the fault record and MEM_BYTES are no part of the reset. -/
theorem hardwareResetLeavesTheResetState : Obligations.HardwareResetLeavesTheResetState := by
  intro s rest h
  exact ⟨_, step_hwReset h, rfl, rfl, State.irq_of_regs_reset rfl, rfl, rfl, Memory.reset_size s.dmem,
    Memory.wf_reset s.dmem, fun a => ⟨rfl, Memory.read_reset s.dmem a⟩⟩

/-- MEM_BYTES is legal whatever the implementation chose (R8). -/
theorem memBytes_legal : 16 ≤ Config.memBytes ∧ Config.memBytes ≤ 2 ^ 31 := by
  rw [Config.memBytes]
  omega

/-- Settles O49: nothing is written, no command is in flight, and no error is reported. -/
theorem resetSatisfiesTheInvariant : Obligations.ResetSatisfiesTheInvariant where
  memory := rfl
  size := memBytes_legal
  engine := rfl
  errCode := Nat.zero_le 5

/-! ## The first command after reset (R168) -/

theorem not_goodDim_zero : ¬ GoodDim 0#16 := fun h => h.1 rfl

/-- Both dimensions at 0 are both reported. -/
theorem dimensionInfo_of_zero {L : Latch} (hw : L.w = 0#16) (hh : L.h = 0#16) : dimensionInfo L = 3 := by
  rw [dimensionInfo, hw, hh]
  rfl

/-- Settles O38: dimensions of 0 fail the first check of a data command, and NOP has no operand to check. -/
theorem firstCommandAfterReset : Obligations.FirstCommandAfterReset := by
  refine ⟨rfl, rfl, rfl, fun c hc s he hw hh => ?_, nopCompletesAtIssue State.reset rfl⟩
  obtain ⟨-, hop, -, -⟩ := data_row hc
  have hbad : ¬ (GoodDim s.regs.width ∧ GoodDim s.regs.height) := fun hg => not_goodDim_zero (hw ▸ hg.1)
  have hv := validate_bad_dimension (m := s.dmem.size) (L := latch c.2.1 c.2.2.1 s.regs) hop hbad
  rw [dimensionInfo_of_zero hw hh] at hv
  exact exec_data_error hc he hv

end Sys2Proof.Machine
end
